-- ==== Sys2Proof/Word.lean ====
section
/-! DEFINITION. The word types of the CHIP-8 core (spec/00_scope.md R5, R7). -/

namespace Sys2Proof

/-- A byte: a general register, a timer, a memory cell, an immediate `kk` (R5 `V_BITS`, `DT_BITS`, `ST_BITS`). -/
abbrev Byte := BitVec 8

/-- A 16-bit word: an opcode, `PC`, `I`, a stack slot, the keypad vector (R5 `I_BITS`, `PC_BITS`, `STACK_BITS`, `NUM_KEYS`). -/
abbrev Word := BitVec 16

/-- The number of a general register, `V0` to `VF` (R5 `NUM_V`; spec/10_state.md R30). -/
abbrev VReg := Fin 16

/-- The index of a keypad key, 0 to F (R5 `NUM_KEYS`). -/
abbrev Key := Fin 16

end Sys2Proof
end

