-- ==== Sys2Proof/Config.lean ====
section
/-! DEFINITION. The parameters of spec/00_scope.md R5 that are numbers or bytes, and the free values of the model.
Widths and counts that R5 fixes are coded in the types of Machine/State.lean; `wrapA` of Machine/Ops.lean codes `MEM_SIZE`. -/

namespace Sys2Proof

/-- `PC_RESET` (R5; spec/10_state.md R51). -/
abbrev Config.pcReset : Word := 0x200#16

/-- `PROG_BASE`, the address of the first ROM byte (R5). -/
abbrev Config.progBase : Nat := 0x200

/-- `MAX_ROM`, the longest ROM accepted at reset (R5; 90_conflicts.md C6). -/
abbrev Config.maxRom : Nat := 0xDFF

/-- `MEM_SIZE` (R5; spec/10_state.md R45). -/
abbrev Config.memSize : Nat := 0x1000

/-- `NUM_GLYPHS * GLYPH_BYTES`, the bytes of the font (R5). -/
abbrev Config.fontSize : Nat := 80

/-- `FONT`, the default glyphs of digits 0 to 7, five bytes a digit, top row first (spec/10_state.md R55).
PRESUMED (unsafe, log 6): the spec supplies the bytes from general knowledge. -/
def Config.fontLow : List Byte :=
  [0xF0#8, 0x90#8, 0x90#8, 0x90#8, 0xF0#8,
   0x20#8, 0x60#8, 0x20#8, 0x20#8, 0x70#8,
   0xF0#8, 0x10#8, 0xF0#8, 0x80#8, 0xF0#8,
   0xF0#8, 0x10#8, 0xF0#8, 0x10#8, 0xF0#8,
   0x90#8, 0x90#8, 0xF0#8, 0x10#8, 0x10#8,
   0xF0#8, 0x80#8, 0xF0#8, 0x10#8, 0xF0#8,
   0xF0#8, 0x80#8, 0xF0#8, 0x90#8, 0xF0#8,
   0xF0#8, 0x10#8, 0x20#8, 0x40#8, 0x40#8]

/-- `FONT`, the default glyphs of digits 8 to F (spec/10_state.md R55). PRESUMED (unsafe, log 6). -/
def Config.fontHigh : List Byte :=
  [0xF0#8, 0x90#8, 0xF0#8, 0x90#8, 0xF0#8,
   0xF0#8, 0x90#8, 0xF0#8, 0x10#8, 0xF0#8,
   0xF0#8, 0x90#8, 0xF0#8, 0x90#8, 0x90#8,
   0xE0#8, 0x90#8, 0xE0#8, 0x90#8, 0xE0#8,
   0xF0#8, 0x80#8, 0x80#8, 0x80#8, 0xF0#8,
   0xE0#8, 0x90#8, 0x90#8, 0x90#8, 0xE0#8,
   0xF0#8, 0x80#8, 0xF0#8, 0x80#8, 0xF0#8,
   0xF0#8, 0x80#8, 0xF0#8, 0x80#8, 0x80#8]

/-- `FONT`, the default value of the parameter, 80 bytes from address 0x000 (R5; spec/10_state.md R55). PRESUMED (unsafe, log 6). -/
def Config.font : List Byte := Config.fontLow ++ Config.fontHigh

/-- FREE VALUE (log 1, safe): the keypad vector the host presents at step number `n` (spec/40_cycle_driver.md R131, R141). -/
opaque Config.keysAt (n : Nat) : Word

/-- FREE VALUE (log 1, safe): the `tick` input at step number `n` (spec/40_cycle_driver.md R138: "A model treats `tick` as a
free input"). -/
opaque Config.tickAt (n : Nat) : Bool

/-- FREE VALUE (log 1, safe): the random byte at step number `n` (spec/43_alu.md R201: "a model admits every value of `rnd`"). -/
opaque Config.rndAt (n : Nat) : Byte

end Sys2Proof
end

