-- ==== Sys2Proof/Syntax.lean ====
section
/-! DEFINITION. The instructions of spec/opcode_table.json, one constructor a row (spec/30_encoding.md R111).
A word that R110 maps to `UNKNOWN` is no instruction of the table and has no constructor: the decoder rejects it by
name (Decode.lean) and the step gives it the effect of spec/60_exceptions.md R302 (Machine/Cycle.lean). -/

namespace Sys2Proof

/-- The 35 instructions, in the order of spec/30_encoding.md R111; each docstring names the pattern. -/
inductive Instr where
  /-- `0nnn`, legacy machine routine call, a no-op (R160). -/
  | sys (nnn : BitVec 12)
  /-- `00E0`, clear the framebuffer (R240). -/
  | cls
  /-- `00EE`, return (R162). -/
  | ret
  /-- `1nnn`, jump (R163). -/
  | jp (nnn : BitVec 12)
  /-- `2nnn`, call (R164). -/
  | call (nnn : BitVec 12)
  /-- `3xkk`, skip if `Vx = kk` (R181). -/
  | seImm (x : VReg) (kk : Byte)
  /-- `4xkk`, skip if `Vx` differs from `kk` (R182). -/
  | sneImm (x : VReg) (kk : Byte)
  /-- `5xy0`, skip if `Vx = Vy`; bits 3:0 are ignored (R183). -/
  | seReg (x y : VReg)
  /-- `6xkk`, load immediate (R190). -/
  | ldImm (x : VReg) (kk : Byte)
  /-- `7xkk`, add immediate, no flag (R191). -/
  | addImm (x : VReg) (kk : Byte)
  /-- `8xy0`, register copy (R192). -/
  | ldReg (x y : VReg)
  /-- `8xy1`, bitwise OR (R193). -/
  | orReg (x y : VReg)
  /-- `8xy2`, bitwise AND (R194). -/
  | andReg (x y : VReg)
  /-- `8xy3`, bitwise XOR (R195). -/
  | xorReg (x y : VReg)
  /-- `8xy4`, add with carry out (R196). -/
  | addReg (x y : VReg)
  /-- `8xy5`, `Vx - Vy` (R197). -/
  | subReg (x y : VReg)
  /-- `8xy6`, shift `Vx` right by 1; bits 7:4 are ignored (R198). -/
  | shr (x : VReg)
  /-- `8xy7`, `Vy - Vx` (R199). -/
  | subnReg (x y : VReg)
  /-- `8xyE`, shift `Vx` left by 1; bits 7:4 are ignored (R200). -/
  | shl (x : VReg)
  /-- `9xy0`, skip if `Vx` differs from `Vy`; bits 3:0 are ignored (R184). -/
  | sneReg (x y : VReg)
  /-- `Annn`, load the index register (R220). -/
  | ldI (nnn : BitVec 12)
  /-- `Bnnn`, jump with offset `V0` (R166). -/
  | jpV0 (nnn : BitVec 12)
  /-- `Cxkk`, random byte AND immediate (R201). -/
  | rnd (x : VReg) (kk : Byte)
  /-- `Dxyn`, draw an `n`-row sprite (R242). -/
  | drw (x y : VReg) (n : BitVec 4)
  /-- `Ex9E`, skip if the key in `Vx` is pressed (R270). -/
  | skp (x : VReg)
  /-- `ExA1`, skip if the key in `Vx` is not pressed (R271). -/
  | sknp (x : VReg)
  /-- `Fx07`, read the delay timer (R272). -/
  | ldVxDt (x : VReg)
  /-- `Fx0A`, wait for a key press (R273). -/
  | ldVxK (x : VReg)
  /-- `Fx15`, set the delay timer (R274). -/
  | ldDtVx (x : VReg)
  /-- `Fx18`, set the sound timer (R275). -/
  | ldStVx (x : VReg)
  /-- `Fx1E`, add `Vx` to `I` (R225). -/
  | addIVx (x : VReg)
  /-- `Fx29`, point `I` at the glyph of `Vx` (R226). -/
  | ldFVx (x : VReg)
  /-- `Fx33`, store the BCD digits of `Vx` (R227). -/
  | ldBVx (x : VReg)
  /-- `Fx55`, store `V0`..`Vx` to memory (R228). -/
  | ldMemVx (x : VReg)
  /-- `Fx65`, load `V0`..`Vx` from memory (R229). -/
  | ldVxMem (x : VReg)
  deriving DecidableEq, Repr

end Sys2Proof
end

