-- ==== Sys2Proof/Machine/State.lean ====
section
/-! DEFINITION. The state of the machine (spec/10_state.md, complete table R57; outputs of spec/40_cycle_driver.md R130), the reasons
a step can stop, and the state after reset. -/

namespace Sys2Proof.Machine

/-- `MODE` (spec/10_state.md R42). -/
inductive Mode where
  | running
  | awaitKey
  deriving DecidableEq, Repr

/-- The diagnostic causes (spec/60_exceptions.md R300). -/
inductive Cause where
  | unknownOpcode
  | stackOverflow
  | stackUnderflow
  | boundViolation
  deriving DecidableEq, Repr

/-- The diagnostic record of a step (spec/60_exceptions.md R300). The set `causes` is the 4-bit field R300 gives it. -/
structure Diag where
  causes : BitVec 4
  pc     : BitVec 12
  opcode : Option Word
  deriving DecidableEq, Repr

/-- The inputs of one step, `in = (keys, tick, rnd)` (spec/40_cycle_driver.md R131). -/
structure StepInput where
  keys : Word
  tick : Bool
  rnd  : Byte
  deriving DecidableEq, Repr

/-- The framebuffer: 32 rows of 64 pixels (spec/10_state.md R46). Bit `px` of row `py` is the pixel `FB[py][px]` (log 21). -/
abbrev Framebuffer := Vector (BitVec 64) 32

/-- Everything the spec gives the machine, the output record `diag`, and two fields of the model's own (`sched`, `stepNo`, log 1). -/
structure State where
  /-- `V0`..`VF` (R30). -/
  v      : Vector Byte 16
  /-- The index register `I` (R33). -/
  i      : Word
  /-- The program counter `PC` (R35). -/
  pc     : Word
  /-- The stack pointer `SP`, 0..16, the next free slot (R37). -/
  sp     : Fin 17
  /-- The call stack `STACK[0..15]` (R38). -/
  stack  : Vector Word 16
  /-- The delay timer `DT` (R39). -/
  dt     : Byte
  /-- The sound timer `ST` (R40). -/
  st     : Byte
  /-- `MODE` (R42). -/
  mode   : Mode
  /-- `WAITX` (R43). -/
  waitx  : VReg
  /-- `KPREV` (R44). -/
  kprev  : Word
  /-- The memory `MEM` (R45), in the canonical form of `Memory.wf` (Machine/Ops.lean). -/
  mem    : List Host.Cell
  /-- The framebuffer `FB` (R46). -/
  fb     : Framebuffer
  /-- The output `diag` of the last step (R130 of spec/40_cycle_driver.md; log 3). -/
  diag   : Diag
  /-- The model's own: the inputs the host is known to present next, oldest first (log 1). -/
  sched  : List StepInput
  /-- The model's own: the number of the step, the argument of the free inputs (log 1). -/
  stepNo : Nat
  deriving DecidableEq, Repr

/-- The reasons the machine can stop. The spec has no fault that stops it (spec/60_exceptions.md R303, R306): every diagnostic cause
is a next state. -/
inductive Fault where
  /-- Raised by `step` alone, when `PC` is above 0xFFF at a fetch: there is no such byte (spec/20_memory.md R70, R76). SAFE: spec/10_state.md
  R36 says no run reaches such a state (log 20). -/
  | pcOutsideMemory (pc : Word)
  deriving DecidableEq, Repr

/-- The reasons an instruction can be refused. -/
inductive Refusal where
  /-- Raised by `exec`'s arms alone, for an instruction that has no meaning yet: SAFE. No arm raises it: every instruction is modelled. -/
  | notModelled (mnemonic : String)
  deriving DecidableEq, Repr

/-- The machine right after reset: the table of spec/10_state.md R57 under `RESET_POLICY = ZERO` and the default `FONT`, constructed from a
ROM of length 0 (log 4, 5, 6, 7). The memory lists nothing: an unlisted address reads as the reset image (Machine/Ops.lean). -/
def State.reset : State where
  v      := Vector.replicate 16 0#8
  i      := 0#16
  pc     := Config.pcReset
  sp     := 0
  stack  := Vector.replicate 16 0#16
  dt     := 0#8
  st     := 0#8
  mode   := .running
  waitx  := 0
  kprev  := 0#16
  mem    := []
  fb     := Vector.replicate 32 0#64
  diag   := { causes := 0#4, pc := 0#12, opcode := none }
  sched  := []
  stepNo := 0

end Sys2Proof.Machine
end

