-- ==== Sys2Proof/Machine/Ops.lean ====
section
/-! DEFINITION. The named operations over memory, registers, stack, framebuffer, inputs and the diagnostic record (spec/00_scope.md R9). There is
no trap on this hardware (spec/60_exceptions.md R303, R306, R307), so no exception entry and no return from one: what every error has in
common is `report` (R300). -/

namespace Sys2Proof.Machine

/-! ## Memory (spec/20_memory.md R70, R75) -/

/-- What an address that the list does not name reads as: the reset image with an empty ROM (spec/10_state.md R54), the font below
0x050 and 0 elsewhere (log 5, 6). -/
def Memory.unlisted (a : Nat) : Byte := Config.font.getD a 0#8

/-- The byte at address `a`. -/
def Memory.read : List Host.Cell → Nat → Byte
  | [], a => Memory.unlisted a
  | (k, b) :: m, a => if k = a then b else Memory.read m a

/-- The memory with byte `v` at address `a`; a byte equal to what an unlisted address reads as takes no entry. -/
def Memory.write : List Host.Cell → Nat → Byte → List Host.Cell
  | [], a, v => if v = Memory.unlisted a then [] else [(a, v)]
  | (k, b) :: m, a, v =>
    if a < k then (if v = Memory.unlisted a then (k, b) :: m else (a, v) :: (k, b) :: m)
    else if a = k then (if v = Memory.unlisted a then m else (a, v) :: m)
    else (k, b) :: Memory.write m a v

/-- The canonical form from address `lo` on: addresses strictly rising, inside the address space, no entry equal to what an unlisted
address reads as. -/
def Memory.wfFrom : Nat → List Host.Cell → Bool
  | _, [] => true
  | lo, (k, b) :: m =>
    decide (lo ≤ k) && decide (k < Config.memSize) && decide (b ≠ Memory.unlisted k) && Memory.wfFrom (k + 1) m

/-- The canonical form of a memory. -/
def Memory.wf (m : List Host.Cell) : Bool := Memory.wfFrom 0 m

/-- The memory that holds byte `f a` at every address `a`. -/
def Memory.ofImage (f : Nat → Byte) : List Host.Cell :=
  (List.range Config.memSize).filterMap fun a => if f a = Memory.unlisted a then none else some (a, f a)

/-- The byte at address `a` of the machine's memory. -/
def State.byte (s : State) (a : Nat) : Byte := Memory.read s.mem a

/-! ## The diagnostic record (spec/60_exceptions.md R300) -/

/-- The bit of a cause in the 4-bit field (R300). -/
def Cause.bit : Cause → BitVec 4
  | .unknownOpcode  => 0x1#4
  | .stackOverflow  => 0x2#4
  | .stackUnderflow => 0x4#4
  | .boundViolation => 0x8#4

/-- `report c` when `b` holds: adds `c` to the set of causes; a second report changes nothing (R300). -/
def State.reportIf (s : State) (b : Bool) (c : Cause) : State :=
  { s with diag := { s.diag with causes := s.diag.causes ||| (bif b then c.bit else 0#4) } }

/-- `report c` (spec/00_scope.md R9). -/
def State.report (s : State) (c : Cause) : State := s.reportIf true c

/-- The cause `c` is in the record's set. -/
def Diag.has (d : Diag) (c : Cause) : Bool := d.causes &&& c.bit != 0#4

/-- The field `valid` of the record: some cause was reported (R300). -/
def Diag.valid (d : Diag) : Bool := d.causes != 0#4

/-! ## Address bounding (spec/20_memory.md R74) -/

/-- The address that `wrapA` returns (R74; UNVERIFIED, log 8: the spec's choice of wrapping over clamping). -/
def wrapA (a : Nat) : Nat := a % 0x1000

/-- The condition under which `wrapA` reports `BoundViolation`. -/
def outOfRange (a : Nat) : Bool := decide (0xFFF < a)

/-- The report that `wrapA a` makes. -/
def State.reportBound (s : State) (a : Nat) : State := s.reportIf (outOfRange a) .boundViolation

/-! ## Registers -/

/-- `V[x]` (spec/10_state.md R30). -/
def State.getV (s : State) (x : VReg) : Byte := s.v[x.val]

/-- `V[x] <- b`. No register is hard-wired (R31). -/
def State.setV (s : State) (x : VReg) (b : Byte) : State := { s with v := s.v.set x.val b x.isLt }

/-- `VF`, the flag register (R32). -/
abbrev vf : VReg := 15

/-- A flag's value in `VF`: 1 or 0 (R41). -/
def flagByte (b : Bool) : Byte := bif b then 1#8 else 0#8

/-- The data write, then the flag write (R32; 90_conflicts.md C2): when `x = 0xF` the flag stays. -/
def State.setVFlag (s : State) (x : VReg) (b : Byte) (flag : Bool) : State := (s.setV x b).setV vf (flagByte flag)

/-- `I <- w`. -/
def State.setI (s : State) (w : Word) : State := { s with i := w }

/-- `PC <- w`. -/
def State.setPc (s : State) (w : Word) : State := { s with pc := w }

/-- `I <- wrapA(a)` (R74: stored already wrapped). -/
def State.setIWrapped (s : State) (a : Nat) : State := (s.reportBound a).setI (BitVec.ofNat 16 (wrapA a))

/-- `PC <- wrapA(a)` (R74: stored already wrapped). -/
def State.setPcWrapped (s : State) (a : Nat) : State := (s.reportBound a).setPc (BitVec.ofNat 16 (wrapA a))

/-- `DT <- b`. -/
def State.setDt (s : State) (b : Byte) : State := { s with dt := b }

/-- `ST <- b`. -/
def State.setSt (s : State) (b : Byte) : State := { s with st := b }

/-- `MODE <- m`. -/
def State.setMode (s : State) (m : Mode) : State := { s with mode := m }

/-- `WAITX <- x`. -/
def State.setWaitx (s : State) (x : VReg) : State := { s with waitx := x }

/-- `KPREV <- w`. -/
def State.setKprev (s : State) (w : Word) : State := { s with kprev := w }

/-- The framebuffer replaced. -/
def State.setFb (s : State) (fb : Framebuffer) : State := { s with fb := fb }

/-- The memory replaced. -/
def State.setMem (s : State) (m : List Host.Cell) : State := { s with mem := m }

/-- The diagnostic record replaced. -/
def State.setDiag (s : State) (d : Diag) : State := { s with diag := d }

/-! ## Data accesses (R75): the value, and the state with the report that the address makes -/

/-- `MemRead(a, 1)`: the state after the report, and the byte. -/
def State.memRead (s : State) (a : Nat) : State × Byte := (s.reportBound a, s.byte (wrapA a))

/-- `MemWrite(a, 1, b)`. -/
def State.memWrite (s : State) (a : Nat) (b : Byte) : State :=
  (s.reportBound a).setMem (Memory.write s.mem (wrapA a) b)

/-! ## The call stack (spec/41_control_flow.md R161) -/

/-- `STACK[j]`. -/
def State.slot (s : State) (j : Fin 16) : Word := s.stack[j.val]

/-- `push(w)`; `none` when the stack is full (`SP = STACK_DEPTH`). -/
def State.push (s : State) (w : Word) : Option State :=
  if h : s.sp.val < 16 then
    some { s with stack := s.stack.set s.sp.val w h, sp := ⟨s.sp.val + 1, by omega⟩ }
  else none

/-- `pop()`, the state and the return address; `none` when the stack is empty. The slot keeps its value (spec/10_state.md R38). -/
def State.pop (s : State) : Option (State × Word) :=
  if h : 0 < s.sp.val then
    some ({ s with sp := ⟨s.sp.val - 1, by omega⟩ }, s.slot ⟨s.sp.val - 1, by omega⟩)
  else none

/-! ## The framebuffer (spec/10_state.md R46) -/

/-- The pixel `FB[py][px]`. -/
def Framebuffer.pixel (fb : Framebuffer) (py : Fin 32) (px : Fin 64) : Bool := (fb[py.val]).getLsbD px.val

/-- `FB[py][px] <- FB[py][px] ^ 1`. -/
def Framebuffer.toggle (fb : Framebuffer) (py : Fin 32) (px : Fin 64) : Framebuffer :=
  fb.set py.val (fb[py.val] ^^^ (1#64 <<< px.val)) py.isLt

/-- The framebuffer with every pixel off. -/
def Framebuffer.off : Framebuffer := Vector.replicate 32 0#64

/-! ## Inputs and outputs (spec/40_cycle_driver.md R130, R131) -/

/-- The inputs of the step: the first of `sched`, or free values once the schedule is empty (log 1). -/
def State.input (s : State) : StepInput :=
  match s.sched with
  | inp :: _ => inp
  | [] => { keys := Config.keysAt s.stepNo, tick := Config.tickAt s.stepNo, rnd := Config.rndAt s.stepNo }

/-- The step's inputs are used up: the next step has inputs of its own. -/
def State.nextInput (s : State) : State := { s with sched := s.sched.tail, stepNo := s.stepNo + 1 }

/-- `in.keys[k]`: key `k` is pressed (spec/10_state.md R47). -/
def State.keyDown (s : State) (k : Key) : Bool := s.input.keys.getLsbD k.val

/-- The output port `fb` (R130, R143). -/
def State.fbPort (s : State) (py : Fin 32) (px : Fin 64) : Bool := Framebuffer.pixel s.fb py px

/-- The output port `awaiting` (R130). -/
def State.awaiting (s : State) : Bool := decide (s.mode = .awaitKey)

end Sys2Proof.Machine
end

