-- ==== Sys2Proof/Machine/Construct.lean ====
section
/-! DEFINITION. Construction of the machine from a ROM, the only reset (spec/10_state.md R54 to R57; spec/70_reset_and_hazards.md R340 to R344), with
the parameters `FONT` and `RESET_POLICY` of spec/00_scope.md R5. -/

namespace Sys2Proof.Machine

/-- One free draw of everything the source gives no reset value for (R56). `I` is drawn among its legal values (R34), and the memory outside
the font and the ROM by address (R54; 92_eei_decisions.md D3). -/
structure ResetDraw where
  v     : Vector Byte 16
  i     : BitVec 12
  dt    : Byte
  st    : Byte
  stack : Vector Word 16
  fb    : Framebuffer
  waitx : VReg
  kprev : Word
  fill  : List Byte
  deriving DecidableEq, Repr

/-- `RESET_POLICY` (R56). -/
inductive ResetPolicy where
  | zero
  | unspecified (draw : ResetDraw)
  deriving DecidableEq, Repr

/-- The values of the policy `ZERO`: each is 0 (R56). -/
def ResetDraw.zeros : ResetDraw where
  v     := Vector.replicate 16 0#8
  i     := 0#12
  dt    := 0#8
  st    := 0#8
  stack := Vector.replicate 16 0#16
  fb    := Framebuffer.off
  waitx := 0
  kprev := 0#16
  fill  := []

/-- The values a policy gives. -/
def ResetPolicy.values : ResetPolicy → ResetDraw
  | .zero => ResetDraw.zeros
  | .unspecified draw => draw

/-- The default `FONT` as the 80 bytes the parameter has (R55). PRESUMED (log 6). -/
def defaultFont : Vector Byte 80 := ⟨Config.font.toArray, rfl⟩

/-- The initial image `M0` (R54): the font, the ROM from 0x200 upward, and the policy's bytes elsewhere. -/
def initialImage (font : Vector Byte 80) (fill rom : List Byte) (a : Nat) : Byte :=
  if a < Config.fontSize then font.toList.getD a 0#8
  else if Config.progBase ≤ a ∧ a < Config.progBase + rom.length then rom.getD (a - Config.progBase) 0#8
  else fill.getD a 0#8

/-- Construction (R340, R341): `none` is the load error of a ROM longer than `MAX_ROM` (R344), else the state of R57. -/
def construct (font : Vector Byte 80) (policy : ResetPolicy) (rom : List Byte) : Option State :=
  if rom.length ≤ Config.maxRom then
    some { State.reset with
      v := policy.values.v, i := policy.values.i.setWidth 16, dt := policy.values.dt, st := policy.values.st,
      stack := policy.values.stack, fb := policy.values.fb, waitx := policy.values.waitx, kprev := policy.values.kprev,
      mem := Memory.ofImage (initialImage font policy.values.fill rom) }
  else none

end Sys2Proof.Machine
end

