-- ==== Sys2Proof/WellFormed.lean ====
section
/-! DEFINITION. Which terms of `Instr` are instructions of the set. Every operand is held in a type of exactly its
field's width (spec/30_encoding.md R101), so one check is left: `0nnn` excludes the words 0x00E0 and 0x00EE, which are
other instructions (R105, R111). -/

namespace Sys2Proof

/-- The instruction is one that some opcode stands for. -/
def Instr.wellFormed : Instr → Bool
  | .sys nnn => nnn != 0x0E0#12 && nnn != 0x0EE#12
  | .cls | .ret | .jp _ | .call _ | .seImm _ _ | .sneImm _ _ | .seReg _ _ | .ldImm _ _ | .addImm _ _ => true
  | .ldReg _ _ | .orReg _ _ | .andReg _ _ | .xorReg _ _ | .addReg _ _ | .subReg _ _ | .shr _ | .subnReg _ _ => true
  | .shl _ | .sneReg _ _ | .ldI _ | .jpV0 _ | .rnd _ _ | .drw _ _ _ | .skp _ | .sknp _ | .ldVxDt _ | .ldVxK _ => true
  | .ldDtVx _ | .ldStVx _ | .addIVx _ | .ldFVx _ | .ldBVx _ | .ldMemVx _ | .ldVxMem _ => true

end Sys2Proof
end

