-- ==== Sys2Proof/Decode.lean ====
section
/-! DEFINITION. The decoder (spec/30_encoding.md R100 to R114) and, after it, the encoder written from the same table. -/

namespace Sys2Proof

/-! ## Fields of an opcode (R101) -/

/-- `op = opcode[15:12]`, the family selector. -/
def fieldOp (w : Word) : BitVec 4 := w.extractLsb' 12 4

/-- `nnn = opcode[11:0]`. -/
def fieldNnn (w : Word) : BitVec 12 := w.extractLsb' 0 12

/-- `n = opcode[3:0]`. -/
def fieldN (w : Word) : BitVec 4 := w.extractLsb' 0 4

/-- `kk = opcode[7:0]`. -/
def fieldKk (w : Word) : Byte := w.extractLsb' 0 8

/-- The register that a 4-bit field selects (spec/10_state.md R30). -/
def regOf (b : BitVec 4) : VReg := b.toFin

/-- `x = opcode[11:8]`. -/
def fieldX (w : Word) : VReg := regOf (w.extractLsb' 8 4)

/-- `y = opcode[7:4]`. -/
def fieldY (w : Word) : VReg := regOf (w.extractLsb' 4 4)

/-! ## The decoder (R110) -/

/-- Why a word or a byte sequence is no instruction. -/
inductive Reject where
  /-- `8xyN` with `N` not a sub-operation (R107). -/
  | unknownAlu (n : BitVec 4)
  /-- `ExKK` with `KK` not a key test (R108). -/
  | unknownKey (kk : Byte)
  /-- `FxKK` with `KK` not a misc sub-operation (R109). -/
  | unknownMisc (kk : Byte)
  /-- Fewer than the two bytes of an instruction (R100); no fetch ever gives this. -/
  | truncated
  deriving DecidableEq, Repr

/-- What the decoder answers. -/
inductive Decoded where
  | instr (i : Instr)
  | rejected (r : Reject)
  deriving DecidableEq, Repr

/-- Family 0x0, decoded on the full 16-bit opcode (R105; 90_conflicts.md C1). -/
def decodeZero (w : Word) : Decoded :=
  if w = 0x00E0#16 then .instr .cls
  else if w = 0x00EE#16 then .instr .ret
  else .instr (.sys (fieldNnn w))

/-- Family 0x8, decoded on `n` (R107). -/
def decodeAlu (w : Word) : Decoded :=
  if fieldN w = 0x0#4 then .instr (.ldReg (fieldX w) (fieldY w))
  else if fieldN w = 0x1#4 then .instr (.orReg (fieldX w) (fieldY w))
  else if fieldN w = 0x2#4 then .instr (.andReg (fieldX w) (fieldY w))
  else if fieldN w = 0x3#4 then .instr (.xorReg (fieldX w) (fieldY w))
  else if fieldN w = 0x4#4 then .instr (.addReg (fieldX w) (fieldY w))
  else if fieldN w = 0x5#4 then .instr (.subReg (fieldX w) (fieldY w))
  else if fieldN w = 0x6#4 then .instr (.shr (fieldX w))
  else if fieldN w = 0x7#4 then .instr (.subnReg (fieldX w) (fieldY w))
  else if fieldN w = 0xE#4 then .instr (.shl (fieldX w))
  else .rejected (.unknownAlu (fieldN w))

/-- Family 0xE, decoded on `kk` (R108). -/
def decodeKey (w : Word) : Decoded :=
  if fieldKk w = 0x9E#8 then .instr (.skp (fieldX w))
  else if fieldKk w = 0xA1#8 then .instr (.sknp (fieldX w))
  else .rejected (.unknownKey (fieldKk w))

/-- Family 0xF, decoded on `kk` (R109). -/
def decodeMisc (w : Word) : Decoded :=
  if fieldKk w = 0x07#8 then .instr (.ldVxDt (fieldX w))
  else if fieldKk w = 0x0A#8 then .instr (.ldVxK (fieldX w))
  else if fieldKk w = 0x15#8 then .instr (.ldDtVx (fieldX w))
  else if fieldKk w = 0x18#8 then .instr (.ldStVx (fieldX w))
  else if fieldKk w = 0x1E#8 then .instr (.addIVx (fieldX w))
  else if fieldKk w = 0x29#8 then .instr (.ldFVx (fieldX w))
  else if fieldKk w = 0x33#8 then .instr (.ldBVx (fieldX w))
  else if fieldKk w = 0x55#8 then .instr (.ldMemVx (fieldX w))
  else if fieldKk w = 0x65#8 then .instr (.ldVxMem (fieldX w))
  else .rejected (.unknownMisc (fieldKk w))

/-- The whole decoder on 16-bit words (R110). Families 0x1-0x7, 0x9 and 0xA-0xD look at the high nibble alone (R106).
No mode changes decoding (R114). -/
def decodeWord (w : Word) : Decoded :=
  if fieldOp w = 0x0#4 then decodeZero w
  else if fieldOp w = 0x1#4 then .instr (.jp (fieldNnn w))
  else if fieldOp w = 0x2#4 then .instr (.call (fieldNnn w))
  else if fieldOp w = 0x3#4 then .instr (.seImm (fieldX w) (fieldKk w))
  else if fieldOp w = 0x4#4 then .instr (.sneImm (fieldX w) (fieldKk w))
  else if fieldOp w = 0x5#4 then .instr (.seReg (fieldX w) (fieldY w))
  else if fieldOp w = 0x6#4 then .instr (.ldImm (fieldX w) (fieldKk w))
  else if fieldOp w = 0x7#4 then .instr (.addImm (fieldX w) (fieldKk w))
  else if fieldOp w = 0x8#4 then decodeAlu w
  else if fieldOp w = 0x9#4 then .instr (.sneReg (fieldX w) (fieldY w))
  else if fieldOp w = 0xA#4 then .instr (.ldI (fieldNnn w))
  else if fieldOp w = 0xB#4 then .instr (.jpV0 (fieldNnn w))
  else if fieldOp w = 0xC#4 then .instr (.rnd (fieldX w) (fieldKk w))
  else if fieldOp w = 0xD#4 then .instr (.drw (fieldX w) (fieldY w) (fieldN w))
  else if fieldOp w = 0xE#4 then decodeKey w
  else decodeMisc w

/-! ## Bytes (R100; spec/20_memory.md R76, R77) -/

/-- Two bytes as an opcode, big-endian: the byte at the lower address is bits 15:8 (R77). -/
def wordOfBytes (hi lo : Byte) : Word := hi ++ lo

/-- The two bytes of an opcode, the one at the lower address first (R77). -/
def bytesOfWord (w : Word) : List Byte := [w.extractLsb' 8 8, w.extractLsb' 0 8]

/-- Decode the instruction at the head of a byte sequence, and give the rest of it. -/
def decodeBytes : List Byte → Decoded × List Byte
  | hi :: lo :: rest => (decodeWord (wordOfBytes hi lo), rest)
  | short => (.rejected .truncated, short)

/-- The opcode that `nbits` bits `w` of a table row stand for: one 16-bit word, the bits above `nbits` zero. -/
def tableWord (nbits w : Nat) : Word := BitVec.ofNat 16 (w % 2 ^ nbits)

/-- The host's question: what the decoder reads from a table row's bits (`none` where it rejects the word). -/
def decodeTableWord (nbits w : Nat) : Option Instr :=
  match (decodeBytes (bytesOfWord (tableWord nbits w))).1 with
  | .instr i => some i
  | .rejected _ => none

/-! ## The encoder (R102, R111). Ignored bits are written as zeros (log 22). -/

/-- The 4-bit field of a register number. -/
def regBits (x : VReg) : BitVec 4 := BitVec.ofFin x

/-- Format `NNN` (R102). -/
def encNnn (op : BitVec 4) (nnn : BitVec 12) : Word := op ++ nnn

/-- Formats `XKK` and `XSUB` (R102): the low byte is an immediate or a sub-operation. -/
def encXkk (op : BitVec 4) (x : VReg) (kk : Byte) : Word := op ++ (regBits x ++ kk)

/-- Formats `XY` and `XYN` (R102): the low nibble is a sub-operation or a row count. -/
def encXyn (op : BitVec 4) (x y : VReg) (n : BitVec 4) : Word := op ++ (regBits x ++ (regBits y ++ n))

/-- The opcode of a well-formed instruction (R111). -/
def encode : Instr → Word
  | .sys nnn => encNnn 0x0#4 nnn
  | .cls => 0x00E0#16
  | .ret => 0x00EE#16
  | .jp nnn => encNnn 0x1#4 nnn
  | .call nnn => encNnn 0x2#4 nnn
  | .seImm x kk => encXkk 0x3#4 x kk
  | .sneImm x kk => encXkk 0x4#4 x kk
  | .seReg x y => encXyn 0x5#4 x y 0x0#4
  | .ldImm x kk => encXkk 0x6#4 x kk
  | .addImm x kk => encXkk 0x7#4 x kk
  | .ldReg x y => encXyn 0x8#4 x y 0x0#4
  | .orReg x y => encXyn 0x8#4 x y 0x1#4
  | .andReg x y => encXyn 0x8#4 x y 0x2#4
  | .xorReg x y => encXyn 0x8#4 x y 0x3#4
  | .addReg x y => encXyn 0x8#4 x y 0x4#4
  | .subReg x y => encXyn 0x8#4 x y 0x5#4
  | .shr x => encXyn 0x8#4 x 0 0x6#4
  | .subnReg x y => encXyn 0x8#4 x y 0x7#4
  | .shl x => encXyn 0x8#4 x 0 0xE#4
  | .sneReg x y => encXyn 0x9#4 x y 0x0#4
  | .ldI nnn => encNnn 0xA#4 nnn
  | .jpV0 nnn => encNnn 0xB#4 nnn
  | .rnd x kk => encXkk 0xC#4 x kk
  | .drw x y n => encXyn 0xD#4 x y n
  | .skp x => encXkk 0xE#4 x 0x9E#8
  | .sknp x => encXkk 0xE#4 x 0xA1#8
  | .ldVxDt x => encXkk 0xF#4 x 0x07#8
  | .ldVxK x => encXkk 0xF#4 x 0x0A#8
  | .ldDtVx x => encXkk 0xF#4 x 0x15#8
  | .ldStVx x => encXkk 0xF#4 x 0x18#8
  | .addIVx x => encXkk 0xF#4 x 0x1E#8
  | .ldFVx x => encXkk 0xF#4 x 0x29#8
  | .ldBVx x => encXkk 0xF#4 x 0x33#8
  | .ldMemVx x => encXkk 0xF#4 x 0x55#8
  | .ldVxMem x => encXkk 0xF#4 x 0x65#8

/-- The bits of an opcode that its instruction's meaning looks at; the others are ignored by the decoder (R106, R198, R200). -/
def usedBits : Instr → Word
  | .seReg _ _ | .sneReg _ _ => 0xFFF0#16
  | .shr _ | .shl _ => 0xFF0F#16
  | .sys _ | .cls | .ret | .jp _ | .call _ | .seImm _ _ | .sneImm _ _ | .ldImm _ _ | .addImm _ _ => 0xFFFF#16
  | .ldReg _ _ | .orReg _ _ | .andReg _ _ | .xorReg _ _ | .addReg _ _ | .subReg _ _ | .subnReg _ _ => 0xFFFF#16
  | .ldI _ | .jpV0 _ | .rnd _ _ | .drw _ _ _ | .skp _ | .sknp _ | .ldVxDt _ | .ldVxK _ | .ldDtVx _ => 0xFFFF#16
  | .ldStVx _ | .addIVx _ | .ldFVx _ | .ldBVx _ | .ldMemVx _ | .ldVxMem _ => 0xFFFF#16

/-! ## The opcode map (R111), a second reading of the encodings to hold the decoder against -/

/-- One row of the opcode map: its label, mask and match value (R111). -/
structure OpcodeRow where
  label : String
  mask  : Word
  value : Word
  deriving DecidableEq, Repr

/-- Part A of the rows of R111, `00E0` and `00EE` before `0nnn`. -/
def opcodeRowsA : List OpcodeRow :=
  [⟨"CLS", 0xFFFF#16, 0x00E0#16⟩,
   ⟨"RET", 0xFFFF#16, 0x00EE#16⟩,
   ⟨"SYS", 0xF000#16, 0x0000#16⟩,
   ⟨"JP", 0xF000#16, 0x1000#16⟩,
   ⟨"CALL", 0xF000#16, 0x2000#16⟩,
   ⟨"SE_IMM", 0xF000#16, 0x3000#16⟩,
   ⟨"SNE_IMM", 0xF000#16, 0x4000#16⟩,
   ⟨"SE_REG", 0xF000#16, 0x5000#16⟩,
   ⟨"LD_IMM", 0xF000#16, 0x6000#16⟩,
   ⟨"ADD_IMM", 0xF000#16, 0x7000#16⟩,
   ⟨"LD_REG", 0xF00F#16, 0x8000#16⟩,
   ⟨"OR", 0xF00F#16, 0x8001#16⟩]

/-- Part B of the rows of R111, `00E0` and `00EE` before `0nnn`. -/
def opcodeRowsB : List OpcodeRow :=
  [⟨"AND", 0xF00F#16, 0x8002#16⟩,
   ⟨"XOR", 0xF00F#16, 0x8003#16⟩,
   ⟨"ADD_REG", 0xF00F#16, 0x8004#16⟩,
   ⟨"SUB", 0xF00F#16, 0x8005#16⟩,
   ⟨"SHR", 0xF00F#16, 0x8006#16⟩,
   ⟨"SUBN", 0xF00F#16, 0x8007#16⟩,
   ⟨"SHL", 0xF00F#16, 0x800E#16⟩,
   ⟨"SNE_REG", 0xF000#16, 0x9000#16⟩,
   ⟨"LD_I", 0xF000#16, 0xA000#16⟩,
   ⟨"JP_V0", 0xF000#16, 0xB000#16⟩,
   ⟨"RND", 0xF000#16, 0xC000#16⟩,
   ⟨"DRW", 0xF000#16, 0xD000#16⟩]

/-- Part C of the rows of R111, `00E0` and `00EE` before `0nnn`. -/
def opcodeRowsC : List OpcodeRow :=
  [⟨"SKP", 0xF0FF#16, 0xE09E#16⟩,
   ⟨"SKNP", 0xF0FF#16, 0xE0A1#16⟩,
   ⟨"LD_VX_DT", 0xF0FF#16, 0xF007#16⟩,
   ⟨"LD_VX_K", 0xF0FF#16, 0xF00A#16⟩,
   ⟨"LD_DT_VX", 0xF0FF#16, 0xF015#16⟩,
   ⟨"LD_ST_VX", 0xF0FF#16, 0xF018#16⟩,
   ⟨"ADD_I_VX", 0xF0FF#16, 0xF01E#16⟩,
   ⟨"LD_F_VX", 0xF0FF#16, 0xF029#16⟩,
   ⟨"LD_B_VX", 0xF0FF#16, 0xF033#16⟩,
   ⟨"LD_MEM_VX", 0xF0FF#16, 0xF055#16⟩,
   ⟨"LD_VX_MEM", 0xF0FF#16, 0xF065#16⟩]

/-- The 35 rows of R111: "A decoder built from this table must test 00E0 and 00EE before `0nnn`". -/
def opcodeRows : List OpcodeRow := opcodeRowsA ++ opcodeRowsB ++ opcodeRowsC

/-- The label of an instruction's row (R111). -/
def Instr.label : Instr → String
  | .sys .. => "SYS"
  | .cls .. => "CLS"
  | .ret .. => "RET"
  | .jp .. => "JP"
  | .call .. => "CALL"
  | .seImm .. => "SE_IMM"
  | .sneImm .. => "SNE_IMM"
  | .seReg .. => "SE_REG"
  | .ldImm .. => "LD_IMM"
  | .addImm .. => "ADD_IMM"
  | .ldReg .. => "LD_REG"
  | .orReg .. => "OR"
  | .andReg .. => "AND"
  | .xorReg .. => "XOR"
  | .addReg .. => "ADD_REG"
  | .subReg .. => "SUB"
  | .shr .. => "SHR"
  | .subnReg .. => "SUBN"
  | .shl .. => "SHL"
  | .sneReg .. => "SNE_REG"
  | .ldI .. => "LD_I"
  | .jpV0 .. => "JP_V0"
  | .rnd .. => "RND"
  | .drw .. => "DRW"
  | .skp .. => "SKP"
  | .sknp .. => "SKNP"
  | .ldVxDt .. => "LD_VX_DT"
  | .ldVxK .. => "LD_VX_K"
  | .ldDtVx .. => "LD_DT_VX"
  | .ldStVx .. => "LD_ST_VX"
  | .addIVx .. => "ADD_I_VX"
  | .ldFVx .. => "LD_F_VX"
  | .ldBVx .. => "LD_B_VX"
  | .ldMemVx .. => "LD_MEM_VX"
  | .ldVxMem .. => "LD_VX_MEM"

/-- The label of what the decoder answers; `none` for a rejected word. -/
def Decoded.label? : Decoded → Option String
  | .instr i => some i.label
  | .rejected _ => none

end Sys2Proof
end

