-- ==== Sys2Proof/Machine/Flags.lean ====
section
/-! DEFINITION. The results and flags of the 8-bit ALU (spec/43_alu.md R202; spec/10_state.md R41). Each flag is computed from the operand
values before any write (R32). -/

namespace Sys2Proof.Machine

/-- Carry of `8xy4`: the exact sum exceeds 255 (R196). -/
def carryOut (a b : Byte) : Bool := decide (255 < a.toNat + b.toNat)

/-- Flag of `8xy5` and `8xy7`: minuend strictly greater than subtrahend (R197, R199; 90_conflicts.md C3). -/
def strictlyGreater (a b : Byte) : Bool := decide (b.toNat < a.toNat)

/-- The bit a right shift moves out, `a[0]` (R198). -/
def lowBit (a : Byte) : Bool := a.getLsbD 0

/-- The bit a left shift moves out, `a[7]` (R200). -/
def highBit (a : Byte) : Bool := a.getLsbD 7

/-- The sum `mod 256` (R202). -/
def aluAdd (a b : Byte) : Byte := BitVec.ofNat 8 (a.toNat + b.toNat)

/-- The difference `mod 256`, which is `a - b + 256` when `a < b` (R202). -/
def aluSub (a b : Byte) : Byte := BitVec.ofNat 8 (a.toNat + 256 - b.toNat)

/-- `a >> 1`, logical (R198). -/
def aluShr (a : Byte) : Byte := a >>> 1

/-- `(a << 1) mod 256` (R200). -/
def aluShl (a : Byte) : Byte := a <<< 1

/-- The delay timer after the decay of a step (spec/40_cycle_driver.md R138): down by 1 when it is not 0 and the tick input is 1. -/
def decayed (tick : Bool) (dt : Byte) : Byte := if dt ≠ 0#8 ∧ tick = true then aluSub dt 1#8 else dt

end Sys2Proof.Machine
end

