-- ==== Sys2Proof/Machine/Operands.lean ====
section
/-! DEFINITION. The operand forms (spec/30_encoding.md R103; spec/44_index_memory.md R221): which address, key or register list an instruction's
fields stand for. -/

namespace Sys2Proof.Machine

/-- Absolute `nnn`, zero-extended to `PC` or `I` (R103). -/
def absolute (nnn : BitVec 12) : Word := nnn.setWidth 16

/-- Absolute plus `V0`, exact and not yet wrapped (spec/41_control_flow.md R166). -/
def State.jumpV0Target (s : State) (nnn : BitVec 12) : Nat := nnn.toNat + (s.getV 0).toNat

/-- Register-indirect `I + k`, exact and not yet wrapped (R221). -/
def State.dataAddr (s : State) (k : Nat) : Nat := s.i.toNat + k

/-- `I + V[x]`, exact and not yet wrapped (R225). -/
def State.indexSum (s : State) (x : VReg) : Nat := s.i.toNat + (s.getV x).toNat

/-- The address of the glyph of a byte, `5 * v` for the whole byte (R226). -/
def glyphAddr (v : Byte) : Nat := 5 * v.toNat

/-- The registers `V0`..`Vx`, in ascending order (R228, R229). -/
def regsUpTo (x : VReg) : List VReg := (List.range (x.val + 1)).map (Fin.ofNat 16)

/-- The decimal digits of a byte: hundreds, tens, ones (R227). -/
def bcdHundreds (v : Byte) : Byte := BitVec.ofNat 8 (v.toNat / 100)

/-- See `bcdHundreds`. -/
def bcdTens (v : Byte) : Byte := BitVec.ofNat 8 (v.toNat / 10 % 10)

/-- See `bcdHundreds`. -/
def bcdOnes (v : Byte) : Byte := BitVec.ofNat 8 (v.toNat % 10)

/-- `keyidx(v)`: the low nibble (spec/46_keypad_timers.md R276). -/
def keyIdx (v : Byte) : Key := Fin.ofNat 16 v.toNat

/-- The condition under which `keyidx` reports `BoundViolation` (R276). -/
def keyOutOfRange (v : Byte) : Bool := decide (0xF < v.toNat)

/-- The 16 keys, least index first. -/
def allKeys : List Key := (List.range 16).map (Fin.ofNat 16)

/-- The keys that are pressed in `keys` and were not in `prev` (spec/40_cycle_driver.md R136). -/
def newlyPressed (keys prev : Word) : Word := keys &&& ~~~prev

/-- The least index of a set bit (R136; UNVERIFIED, log 13). -/
def leastKey (newly : Word) : Option Key := allKeys.find? fun k => newly.getLsbD k.val

end Sys2Proof.Machine
end

