-- ==== Sys2Proof/Machine/Cycle.lean ====
section
/-! DEFINITION. The parts of a step around the handler (spec/40_cycle_driver.md R133 to R139): the diagnostic record's start, fetch and PC
advance, the unknown-opcode policy, the keypad poll, the timer decay and the latch. -/

namespace Sys2Proof.Machine

/-- `Fetch(a)`: two bytes, the one at the lower address in bits 15:8 (spec/20_memory.md R76). -/
def State.fetch (s : State) (a : Nat) : Word := wordOfBytes (s.byte a) (s.byte (wrapA (a + 1)))

/-- The opcode at `PC`. -/
def State.opcodeAtPc (s : State) : Word := s.fetch s.pc.toNat

/-- `PC` names a byte of memory (spec/20_memory.md R70; log 20). -/
def State.pcInMemory (s : State) : Bool := decide (s.pc.toNat ≤ 0xFFF)

/-- The record at the start of a step: no cause, this `PC`, and the given opcode (R133). -/
def State.beginDiag (s : State) (opcode : Option Word) : State :=
  s.setDiag { causes := 0#4, pc := s.pc.setWidth 12, opcode := opcode }

/-- The state the handler runs on: the record started, the opcode fetched, `PC` advanced by 2 and wrapped, with the reports of the second
byte's address and of the advance (R133, R134). -/
def State.fetched (s : State) : State :=
  ((s.beginDiag (some s.opcodeAtPc)).reportBound (s.pc.toNat + 1)).setPcWrapped (s.pc.toNat + 2)

/-- The unknown-opcode policy: `report UnknownOpcode` and nothing else (R135; spec/60_exceptions.md R302). -/
def State.executeUnknown (s : State) : State := s.report .unknownOpcode

/-- `await_poll(in.keys)` (R136). -/
def State.awaitPoll (s : State) : State :=
  match leastKey (newlyPressed s.input.keys s.kprev) with
  | some k => (s.setV s.waitx (BitVec.ofNat 8 k.val)).setMode .running
  | none => s

/-- `timer_decay(in.tick)` (R138). -/
def State.timerDecay (s : State) : State := s.setDt (decayed s.input.tick s.dt)

/-- `KPREV <- in.keys` (R139). -/
def State.latchKeys (s : State) : State := s.setKprev s.input.keys

/-- The end of every step, in both modes: the decay, the latch (R133), and the step's inputs used up. -/
def State.endStep (s : State) : State := s.timerDecay.latchKeys.nextInput

/-- The step in `AwaitKey` mode: nothing is fetched; the poll, then the end of the step (R133, R136). -/
def State.awaitStep (s : State) : State := (s.beginDiag none).awaitPoll.endStep

end Sys2Proof.Machine
end

