-- ==== Sys2Proof/Machine/Alu.lean ====
section
/-! DEFINITION. Register loads and the 8-bit ALU (spec/43_alu.md). -/

namespace Sys2Proof.Machine

/-- `6xkk` (R190). -/
def execLdImm (x : VReg) (kk : Byte) (s : State) : Host.Outcome State Fault Refusal := .next (s.setV x kk)

/-- `7xkk`, no flag (R191). -/
def execAddImm (x : VReg) (kk : Byte) (s : State) : Host.Outcome State Fault Refusal :=
  .next (s.setV x (aluAdd (s.getV x) kk))

/-- `8xy0` (R192). -/
def execLdReg (x y : VReg) (s : State) : Host.Outcome State Fault Refusal := .next (s.setV x (s.getV y))

/-- `8xy1`, no flag (R193). -/
def execOrReg (x y : VReg) (s : State) : Host.Outcome State Fault Refusal :=
  .next (s.setV x (s.getV x ||| s.getV y))

/-- `8xy2`, no flag (R194). -/
def execAndReg (x y : VReg) (s : State) : Host.Outcome State Fault Refusal :=
  .next (s.setV x (s.getV x &&& s.getV y))

/-- `8xy3`, no flag (R195). -/
def execXorReg (x y : VReg) (s : State) : Host.Outcome State Fault Refusal :=
  .next (s.setV x (s.getV x ^^^ s.getV y))

/-- `8xy4` (R196). -/
def execAddReg (x y : VReg) (s : State) : Host.Outcome State Fault Refusal :=
  .next (s.setVFlag x (aluAdd (s.getV x) (s.getV y)) (carryOut (s.getV x) (s.getV y)))

/-- `8xy5` (R197). -/
def execSubReg (x y : VReg) (s : State) : Host.Outcome State Fault Refusal :=
  .next (s.setVFlag x (aluSub (s.getV x) (s.getV y)) (strictlyGreater (s.getV x) (s.getV y)))

/-- `8xy6`, in place on `Vx` (R198). -/
def execShr (x : VReg) (s : State) : Host.Outcome State Fault Refusal :=
  .next (s.setVFlag x (aluShr (s.getV x)) (lowBit (s.getV x)))

/-- `8xy7` (R199). -/
def execSubnReg (x y : VReg) (s : State) : Host.Outcome State Fault Refusal :=
  .next (s.setVFlag x (aluSub (s.getV y) (s.getV x)) (strictlyGreater (s.getV y) (s.getV x)))

/-- `8xyE`, in place on `Vx` (R200). -/
def execShl (x : VReg) (s : State) : Host.Outcome State Fault Refusal :=
  .next (s.setVFlag x (aluShl (s.getV x)) (highBit (s.getV x)))

/-- `Cxkk`: the step's random byte AND `kk` (R201). -/
def execRnd (x : VReg) (kk : Byte) (s : State) : Host.Outcome State Fault Refusal :=
  .next (s.setV x (s.input.rnd &&& kk))

end Sys2Proof.Machine
end

