-- ==== Sys2Proof/Machine/ControlFlow.lean ====
section
/-! DEFINITION. Control transfer (spec/41_control_flow.md). Every meaning runs on the state after the fetch and the `PC` advance. -/

namespace Sys2Proof.Machine

/-- `0nnn`: nothing (R160). -/
def execSys (_nnn : BitVec 12) (s : State) : Host.Outcome State Fault Refusal := .next s

/-- `00EE`: pop into `PC`, or report `StackUnderflow` and change nothing else (R162). -/
def execRet (s : State) : Host.Outcome State Fault Refusal :=
  .next (match s.pop with
    | some (t, w) => t.setPc w
    | none => s.report .stackUnderflow)

/-- `1nnn`: `PC <- nnn` (R163). -/
def execJp (nnn : BitVec 12) (s : State) : Host.Outcome State Fault Refusal := .next (s.setPc (absolute nnn))

/-- `2nnn`: push the advanced `PC` and jump, or report `StackOverflow` and change nothing else (R164). -/
def execCall (nnn : BitVec 12) (s : State) : Host.Outcome State Fault Refusal :=
  .next (match s.push s.pc with
    | some t => t.setPc (absolute nnn)
    | none => s.report .stackOverflow)

/-- `Bnnn`: `PC <- wrapA(nnn + V0)` (R166). -/
def execJpV0 (nnn : BitVec 12) (s : State) : Host.Outcome State Fault Refusal :=
  .next (s.setPcWrapped (s.jumpV0Target nnn))

end Sys2Proof.Machine
end

