-- ==== Sys2Proof/Machine/Display.lean ====
section
/-! DEFINITION. Framebuffer instructions (spec/45_display.md). -/

namespace Sys2Proof.Machine

/-- `00E0`: all pixels off (R240). -/
def execCls (s : State) : Host.Outcome State Fault Refusal := .next (s.setFb Framebuffer.off)

/-- The pixel of sprite column `c` in row `r` (R242): where bit `7 - c` of the row byte is set (R244; UNVERIFIED, log 18), the pixel at
`((X + c) mod 64, (Y + r) mod 32)` is inverted, and an inverted pixel that was on is a collision. -/
def drawPixel (x0 y0 : Nat) (b : Byte) (r : Nat) (acc : Framebuffer × Bool) (c : Nat) : Framebuffer × Bool :=
  if b.getLsbD (7 - c) then
    (acc.1.toggle (Fin.ofNat 32 (y0 + r)) (Fin.ofNat 64 (x0 + c)),
      acc.2 || acc.1.pixel (Fin.ofNat 32 (y0 + r)) (Fin.ofNat 64 (x0 + c)))
  else acc

/-- The eight columns of sprite row `r`, left to right (R242). -/
def drawRow (x0 y0 : Nat) (b : Byte) (r : Nat) (acc : Framebuffer × Bool) : Framebuffer × Bool :=
  (List.range 8).foldl (drawPixel x0 y0 b r) acc

/-- Sprite row `r`: its byte is read at `I + r`, and its pixels are drawn (R242). The flag is the collision so far. -/
def State.drawRowAt (x0 y0 : Nat) (acc : State × Bool) (r : Nat) : State × Bool :=
  let read := acc.1.memRead (acc.1.dataAddr r)
  let drawn := drawRow x0 y0 read.2 r (read.1.fb, acc.2)
  (read.1.setFb drawn.1, drawn.2)

/-- The `n` rows of a sprite, top first (R242). -/
def State.drawSprite (s : State) (x0 y0 n : Nat) : State × Bool := (List.range n).foldl (State.drawRowAt x0 y0) (s, false)

/-- `V[0xF] <- col`, after all pixel writes (R242). -/
def State.writeCollision (acc : State × Bool) : State := acc.1.setV vf (flagByte acc.2)

/-- `Dxyn`: the start position is taken from `Vx` and `Vy` before `VF` is written (R242). -/
def execDrw (x y : VReg) (n : BitVec 4) (s : State) : Host.Outcome State Fault Refusal :=
  .next (State.writeCollision (s.drawSprite ((s.getV x).toNat % 64) ((s.getV y).toNat % 32) n.toNat))

end Sys2Proof.Machine
end

