-- ==== Sys2Proof/Machine/IndexMemory.lean ====
section
/-! DEFINITION. Index register and memory transfers (spec/44_index_memory.md). -/

namespace Sys2Proof.Machine

/-- `Annn` (R220). -/
def execLdI (nnn : BitVec 12) (s : State) : Host.Outcome State Fault Refusal := .next (s.setI (absolute nnn))

/-- `Fx1E`, no flag (R225). -/
def execAddIVx (x : VReg) (s : State) : Host.Outcome State Fault Refusal := .next (s.setIWrapped (s.indexSum x))

/-- `Fx29` (R226). -/
def execLdFVx (x : VReg) (s : State) : Host.Outcome State Fault Refusal :=
  .next (s.setI (BitVec.ofNat 16 (glyphAddr (s.getV x))))

/-- `Fx33`: hundreds, tens, ones at `I`, `I+1`, `I+2` (R227). -/
def execLdBVx (x : VReg) (s : State) : Host.Outcome State Fault Refusal :=
  .next (((s.memWrite (s.dataAddr 0) (bcdHundreds (s.getV x))).memWrite (s.dataAddr 1) (bcdTens (s.getV x))).memWrite
    (s.dataAddr 2) (bcdOnes (s.getV x)))

/-- `MemWrite(I + k, 1, V[k])` (R228). -/
def State.storeReg (s : State) (k : VReg) : State := s.memWrite (s.dataAddr k.val) (s.getV k)

/-- `V[k] <- MemRead(I + k, 1)` (R229). -/
def State.loadReg (s : State) (k : VReg) : State :=
  (s.memRead (s.dataAddr k.val)).1.setV k (s.memRead (s.dataAddr k.val)).2

/-- `Fx55`: `V0`..`Vx` to memory, ascending; `I` unchanged (R228). -/
def execLdMemVx (x : VReg) (s : State) : Host.Outcome State Fault Refusal :=
  .next ((regsUpTo x).foldl State.storeReg s)

/-- `Fx65`: `V0`..`Vx` from memory, ascending; `I` unchanged (R229). -/
def execLdVxMem (x : VReg) (s : State) : Host.Outcome State Fault Refusal :=
  .next ((regsUpTo x).foldl State.loadReg s)

end Sys2Proof.Machine
end

