-- ==== Sys2Proof/Machine/Skips.lean ====
section
/-! DEFINITION. Conditional skips on registers (spec/42_skips.md). -/

namespace Sys2Proof.Machine

/-- `skip()`, when the condition holds: `PC <- wrapA(PC + 2)` over the advanced `PC` (R180). -/
def State.skipIf (s : State) (c : Bool) : State := bif c then s.setPcWrapped (s.pc.toNat + 2) else s

/-- `3xkk` (R181). -/
def execSeImm (x : VReg) (kk : Byte) (s : State) : Host.Outcome State Fault Refusal :=
  .next (s.skipIf (decide (s.getV x = kk)))

/-- `4xkk` (R182). -/
def execSneImm (x : VReg) (kk : Byte) (s : State) : Host.Outcome State Fault Refusal :=
  .next (s.skipIf (decide (s.getV x ≠ kk)))

/-- `5xy0` (R183). -/
def execSeReg (x y : VReg) (s : State) : Host.Outcome State Fault Refusal :=
  .next (s.skipIf (decide (s.getV x = s.getV y)))

/-- `9xy0` (R184). -/
def execSneReg (x y : VReg) (s : State) : Host.Outcome State Fault Refusal :=
  .next (s.skipIf (decide (s.getV x ≠ s.getV y)))

end Sys2Proof.Machine
end

