-- ==== Sys2Proof/Machine/KeypadTimers.lean ====
section
/-! DEFINITION. Keypad and timer instructions (spec/46_keypad_timers.md). -/

namespace Sys2Proof.Machine

/-- The key test of `Ex9E` and `ExA1`: the key `keyidx(Vx)` of the step's keypad vector, level, not edge (R270, R276). -/
def State.keyTest (s : State) (x : VReg) : Bool := s.keyDown (keyIdx (s.getV x))

/-- The report that `keyidx(Vx)` makes (R276). -/
def State.reportKey (s : State) (x : VReg) : State := s.reportIf (keyOutOfRange (s.getV x)) .boundViolation

/-- `Ex9E` (R270). -/
def execSkp (x : VReg) (s : State) : Host.Outcome State Fault Refusal :=
  .next ((s.reportKey x).skipIf (s.keyTest x))

/-- `ExA1` (R271). -/
def execSknp (x : VReg) (s : State) : Host.Outcome State Fault Refusal :=
  .next ((s.reportKey x).skipIf (!s.keyTest x))

/-- `Fx07`: `DT` before this step's decay (R272). -/
def execLdVxDt (x : VReg) (s : State) : Host.Outcome State Fault Refusal := .next (s.setV x s.dt)

/-- `Fx0A`: enter the key wait; `Vx` is written when it resolves (R273; `State.awaitPoll` of Machine/Cycle.lean). -/
def execLdVxK (x : VReg) (s : State) : Host.Outcome State Fault Refusal := .next ((s.setWaitx x).setMode .awaitKey)

/-- `Fx15` (R274). -/
def execLdDtVx (x : VReg) (s : State) : Host.Outcome State Fault Refusal := .next (s.setDt (s.getV x))

/-- `Fx18` (R275). -/
def execLdStVx (x : VReg) (s : State) : Host.Outcome State Fault Refusal := .next (s.setSt (s.getV x))

end Sys2Proof.Machine
end

