-- ==== Sys2Proof/Machine/Step.lean ====
section
/-! DEFINITION. One step of the machine (spec/40_cycle_driver.md R133), and the host's way to place the next instruction. -/

namespace Sys2Proof.Machine

/-- One step (R133): the keypad poll in `AwaitKey` mode; else fetch, `PC` advance, the handler or the unknown-opcode policy; then the end of
the step. It faults only where `PC` names no byte of memory (log 20). -/
def step (s : State) : Host.Outcome State Fault Refusal :=
  match s.mode with
  | .awaitKey => .next s.awaitStep
  | .running =>
    if s.pcInMemory then
      match decodeWord s.opcodeAtPc with
      | .instr i =>
        match exec i s.fetched with
        | .next t => .next t.endStep
        | .fault r => .fault r
        | .refused r => .refused r
      | .rejected _ => .next s.fetched.executeUnknown.endStep
    else .fault (.pcOutsideMemory s.pc)

/-- `s` with the opcode of a table row stored where the next step fetches: its two bytes at `PC` and after it, big-endian, and the mode
`Running`, since an `AwaitKey` step fetches nothing (log 7). -/
def State.withFetchWord (s : State) (nbits w : Nat) : State :=
  (s.setMode .running).setMem
    (Memory.write (Memory.write s.mem s.pc.toNat ((tableWord nbits w).extractLsb' 8 8)) (wrapA (s.pc.toNat + 1))
      ((tableWord nbits w).extractLsb' 0 8))

end Sys2Proof.Machine
end

