-- ==== Sys2Proof/Machine/Run.lean ====
section
/-! DEFINITION. Steps one after another, and the end of a test program (spec/40_cycle_driver.md R142). The block has no halted state: nothing
here changes what `step` does. -/

namespace Sys2Proof.Machine

/-- The state after one step; none where the step stops. -/
def State.next? (s : State) : Option State :=
  match step s with
  | .next t => some t
  | .fault _ => none
  | .refused _ => none

/-- The state after `n` steps; none where one of them stops. -/
def State.afterSteps (s : State) : Nat → Option State
  | 0 => some s
  | n + 1 => (s.afterSteps n).bind State.next?

/-- The machine stands at a halt loop: `Running`, and the word at `PC` is `1nnn` with `nnn = PC` (R142). -/
def State.atHaltLoop (s : State) : Bool :=
  decide (s.mode = .running) && decide (s.opcodeAtPc = encode (.jp (s.pc.setWidth 12))) && s.pcInMemory

/-- The program that starts in `s` ends after `n` steps, in `t`: `t` is the first state, reached after a step, that stands at a halt loop
(R142). The state `s` itself, which no step has reached, does not count (log 28). -/
structure State.EndsAfter (s : State) (n : Nat) (t : State) : Prop where
  /-- `t` is reached after a step. -/
  pos     : 0 < n
  /-- `t` is the state after `n` steps. -/
  reached : s.afterSteps n = some t
  /-- `t` stands at a halt loop. -/
  loop    : t.atHaltLoop = true
  /-- No state reached after fewer steps, but at least one, stands at a halt loop. -/
  first   : ∀ (m : Nat) (u : State), 0 < m → m < n → s.afterSteps m = some u → u.atHaltLoop = false

end Sys2Proof.Machine
end

