-- ==== Sys2Proof/Safety.lean ====
section
/-! DEFINITION. The terms claims are stated in: the parts of a state and what leaves them unchanged, the invariant of every reachable state, and
a quiet step. -/

namespace Sys2Proof

/-- The instructions that write `VF` as a flag (spec/10_state.md R41). -/
def Instr.setsFlag : Instr → Bool
  | .addReg _ _ | .subReg _ _ | .shr _ | .subnReg _ _ | .shl _ | .drw _ _ _ => true
  | .sys _ | .cls | .ret | .jp _ | .call _ | .seImm _ _ | .sneImm _ _ | .seReg _ _ | .ldImm _ _ | .addImm _ _ => false
  | .ldReg _ _ | .orReg _ _ | .andReg _ _ | .xorReg _ _ | .sneReg _ _ | .ldI _ | .jpV0 _ | .rnd _ _ => false
  | .skp _ | .sknp _ | .ldVxDt _ | .ldVxK _ | .ldDtVx _ | .ldStVx _ | .addIVx _ | .ldFVx _ | .ldBVx _ => false
  | .ldMemVx _ | .ldVxMem _ => false

/-- The register an instruction writes as data in the step that executes it, the last one for a block load (spec/10_state.md R41). -/
def Instr.dataDest : Instr → Option VReg
  | .ldImm x _ | .addImm x _ | .ldReg x _ | .orReg x _ | .andReg x _ | .xorReg x _ | .addReg x _ | .subReg x _ => some x
  | .shr x | .subnReg x _ | .shl x | .rnd x _ | .ldVxDt x | .ldVxMem x => some x
  | .sys _ | .cls | .ret | .jp _ | .call _ | .seImm _ _ | .sneImm _ _ | .seReg _ _ | .sneReg _ _ | .ldI _ => none
  | .jpV0 _ | .drw _ _ _ | .skp _ | .sknp _ | .ldVxK _ | .ldDtVx _ | .ldStVx _ | .addIVx _ | .ldFVx _ => none
  | .ldBVx _ | .ldMemVx _ => none

end Sys2Proof

namespace Sys2Proof.Machine

/-- A part of the state, named one value at a time: every register, slot, byte of memory, pixel and field of the diagnostic record. -/
inductive Part where
  | v (r : VReg)
  | i
  | pc
  | sp
  | slot (j : Fin 16)
  | dt
  | st
  | mode
  | waitx
  | kprev
  | byte (a : Nat)
  | pixel (py : Fin 32) (px : Fin 64)
  | causes
  | diagPc
  | diagOpcode
  | sched
  | stepNo
  deriving DecidableEq, Repr

/-- The part has the same value in both states. -/
def Part.Same : Part → State → State → Prop
  | .v r, s, t => t.getV r = s.getV r
  | .i, s, t => t.i = s.i
  | .pc, s, t => t.pc = s.pc
  | .sp, s, t => t.sp = s.sp
  | .slot j, s, t => t.slot j = s.slot j
  | .dt, s, t => t.dt = s.dt
  | .st, s, t => t.st = s.st
  | .mode, s, t => t.mode = s.mode
  | .waitx, s, t => t.waitx = s.waitx
  | .kprev, s, t => t.kprev = s.kprev
  | .byte a, s, t => t.byte a = s.byte a
  | .pixel py px, s, t => t.fbPort py px = s.fbPort py px
  | .causes, s, t => t.diag.causes = s.diag.causes
  | .diagPc, s, t => t.diag.pc = s.diag.pc
  | .diagOpcode, s, t => t.diag.opcode = s.diag.opcode
  | .sched, s, t => t.sched = s.sched
  | .stepNo, s, t => t.stepNo = s.stepNo

/-- The frame: from `s` to `t`, every part outside `changed` is as before. -/
def OnlyChanges (changed : Part → Prop) (s t : State) : Prop := ∀ p, ¬ changed p → p.Same s t

/-- The set of causes of `t` is that of `s` and, where `b` holds, `c` as well; no other cause is added or taken away. -/
def Reports (b : Prop) (c : Cause) (s t : State) : Prop :=
  ∀ d : Cause, t.diag.has d = true ↔ s.diag.has d = true ∨ (d = c ∧ b)

/-- The invariant of every state that reset and steps reach (spec/10_state.md R34, R36, R38; the canonical memory). -/
structure State.Inv (s : State) : Prop where
  /-- `PC <= 0xFFF` (R36). -/
  pc_le  : s.pc.toNat ≤ 0xFFF
  /-- `I <= 0xFFF` (R34). -/
  i_le   : s.i.toNat ≤ 0xFFF
  /-- Every live return address is at most 0xFFF (R38). -/
  ret_le : ∀ j : Fin 16, j.val < s.sp.val → (s.slot j).toNat ≤ 0xFFF
  /-- The memory is in its canonical form. -/
  mem_wf : Memory.wf s.mem = true

/-- The next step of `s` runs the instruction `i` (spec/40_cycle_driver.md R133, R135). -/
def State.runs (s : State) (i : Instr) : Prop :=
  s.mode = .running ∧ s.pc.toNat ≤ 0xFFF ∧ decodeWord s.opcodeAtPc = .instr i

/-- The handler of an instruction computes a `PC`, an address or a key index out of its range (spec/60_exceptions.md R301, the rows of
`BoundViolation`), from the state it runs on. -/
def exceedsBound (s : State) : Instr → Prop
  | .seImm x kk => s.getV x = kk ∧ 0xFFF < s.pc.toNat + 2
  | .sneImm x kk => s.getV x ≠ kk ∧ 0xFFF < s.pc.toNat + 2
  | .seReg x y => s.getV x = s.getV y ∧ 0xFFF < s.pc.toNat + 2
  | .sneReg x y => s.getV x ≠ s.getV y ∧ 0xFFF < s.pc.toNat + 2
  | .skp x => 0xF < (s.getV x).toNat ∨ (s.keyDown (Fin.ofNat 16 (s.getV x).toNat) = true ∧ 0xFFF < s.pc.toNat + 2)
  | .sknp x => 0xF < (s.getV x).toNat ∨ (s.keyDown (Fin.ofNat 16 (s.getV x).toNat) = false ∧ 0xFFF < s.pc.toNat + 2)
  | .jpV0 nnn => 0xFFF < nnn.toNat + (s.getV 0).toNat
  | .addIVx x => 0xFFF < s.i.toNat + (s.getV x).toNat
  | .ldBVx _ => 0xFFF < s.i.toNat + 2
  | .ldMemVx x | .ldVxMem x => 0xFFF < s.i.toNat + x.val
  | .drw _ _ n => 0xFFF < s.i.toNat + (n.toNat - 1) ∧ 0 < n.toNat
  | .sys _ | .cls | .ret | .jp _ | .call _ | .ldImm _ _ | .addImm _ _ | .ldReg _ _ | .orReg _ _ | .andReg _ _ => False
  | .xorReg _ _ | .addReg _ _ | .subReg _ _ | .shr _ | .subnReg _ _ | .shl _ | .ldI _ | .rnd _ _ | .ldVxDt _ => False
  | .ldVxK _ | .ldDtVx _ | .ldStVx _ | .ldFVx _ => False

/-- Key `k` is pressed in this step and was not in the step before (spec/10_state.md R44). -/
def State.newKey (s : State) (k : Key) : Prop := s.keyDown k = true ∧ s.kprev.getLsbD k.val = false

/-- The sprite of `Dxyn` has a set bit on the pixel `FB[py][px]` (spec/45_display.md R242, R244): the pixel lies `dy` rows below and `dx` columns
right of the start position, counted around the edges, inside the sprite, on a set bit of row `dy`'s byte. -/
def State.spriteBit (s : State) (x y : VReg) (n : BitVec 4) (py : Fin 32) (px : Fin 64) : Bool :=
  let dy := (py.val + 32 - (s.getV y).toNat % 32) % 32
  let dx := (px.val + 64 - (s.getV x).toNat % 64) % 64
  decide (dy < n.toNat) && decide (dx < 8) && (s.byte ((s.i.toNat + dy) % 0x1000)).getLsbD (7 - dx)

/-- What the end of every step does (spec/40_cycle_driver.md R138, R139), for the delay timer value `dt` that the handler left: the inputs are
those of `s`, the state after is `t`. -/
structure StepEnd (s : State) (dt : Byte) (t : State) : Prop where
  /-- Down by 1 under `tick`, never below 0 (R138). -/
  decay : t.dt.toNat = if s.input.tick = true then dt.toNat - 1 else dt.toNat
  /-- `KPREV <- in.keys` (R139). -/
  latch : t.kprev = s.input.keys
  /-- The model's own: this step's inputs are used up. -/
  sched : t.sched = s.sched.tail
  /-- The model's own: the next step has the next number. -/
  count : t.stepNo = s.stepNo + 1

/-- The state with other inputs to come. -/
def State.withInputs (s : State) (sched : List StepInput) (n : Nat) : State := { s with sched := sched, stepNo := n }

/-- The outcome with other inputs to come. -/
def outcomeWithInputs (sched : List StepInput) (n : Nat) : Host.Outcome State Fault Refusal → Host.Outcome State Fault Refusal
  | .next t => .next (t.withInputs sched n)
  | .fault r => .fault r
  | .refused r => .refused r

/-- The last step reported no cause: the premise R316 offers to claims. -/
def State.quiet (s : State) : Bool := !s.diag.valid

end Sys2Proof.Machine
end

