-- ==== Sys2Proof/Certificates/Slice0/Obligations.lean ====
section
/-! DEFINITION. The statements for the provers. Each docstring names the rule or section of spec/ it formalises. "Model's choice" marks a clause
that is not a plain rule of the spec, and names the log entry or the decision. -/

open Sys2Proof Sys2Proof.Machine

/-! ## Encoding and decoder -/

/-- Every well-formed instruction's word decodes to it, with every operand at every value of its field (spec/30_encoding.md sections 1 and 3).
Bits the decoder ignores are zero in that word (log 22). -/
def Obligations.DecodeOfEncodeIsTheInstruction : Prop :=
  ∀ i : Instr, i.wellFormed = true → decodeWord (encode i) = .instr i

/-- A word that decodes to an instruction is that instruction's word up to the bits its meaning ignores, and the instruction is well formed
(spec/30_encoding.md sections 2 and 3; log 22). -/
def Obligations.EncodeOfDecodeKeepsTheUsedBits : Prop :=
  ∀ (w : Word) (i : Instr), decodeWord w = .instr i → i.wellFormed = true ∧ encode i = w &&& usedBits i

/-- The decoder picks the row whose mask and match value fit, 00E0 and 00EE before 0nnn, and rejects a word that fits none (R104; R111's rows). -/
def Obligations.DecoderAgreesWithTheOpcodeMap : Prop :=
  ∀ w : Word, (decodeWord w).label? = (opcodeRows.find? fun r => w &&& r.mask == r.value).map OpcodeRow.label

/-- Families 0x8, 0xE and 0xF reject exactly the sub-operations R107, R108 and R109 do not list; no other family rejects a word. -/
def Obligations.UnknownSubOperationsAreRejected : Prop :=
  ∀ w : Word,
    (fieldOp w = 0x8#4 → ((∃ r, decodeWord w = .rejected r) ↔
      fieldN w ∈ [0x8#4, 0x9#4, 0xA#4, 0xB#4, 0xC#4, 0xD#4, 0xF#4])) ∧
    (fieldOp w = 0xE#4 → ((∃ r, decodeWord w = .rejected r) ↔ fieldKk w ∉ [0x9E#8, 0xA1#8])) ∧
    (fieldOp w = 0xF#4 → ((∃ r, decodeWord w = .rejected r) ↔
      fieldKk w ∉ [0x07#8, 0x0A#8, 0x15#8, 0x18#8, 0x1E#8, 0x29#8, 0x33#8, 0x55#8, 0x65#8])) ∧
    (fieldOp w ∉ [0x8#4, 0xE#4, 0xF#4] → ∃ i, decodeWord w = .instr i)

/-- Families 0x1 to 0x7, 0x9 and 0xA to 0xD are decoded on the high nibble alone, and the low nibble of `5xyN` and `9xyN` is ignored (R106). -/
def Obligations.HighNibbleAloneSelectsTheseFamilies : Prop :=
  (∀ w w' : Word, fieldOp w = fieldOp w' →
    fieldOp w ∈ [0x1#4, 0x2#4, 0x3#4, 0x4#4, 0x5#4, 0x6#4, 0x7#4, 0x9#4, 0xA#4, 0xB#4, 0xC#4, 0xD#4] →
    ∃ i i', decodeWord w = .instr i ∧ decodeWord w' = .instr i' ∧ i.label = i'.label) ∧
  (∀ w : Word, fieldOp w = 0x5#4 ∨ fieldOp w = 0x9#4 → decodeWord w = decodeWord (w &&& 0xFFF0#16))

/-- A few opcodes written out from the patterns of spec/30_encoding.md section 3, one a family. -/
def Obligations.SampleOpcodesDecodeAsWritten : Prop :=
  decodeWord 0x00EE#16 = .instr .ret ∧ decodeWord 0x2ABC#16 = .instr (.call 0xABC#12) ∧
  decodeWord 0x35E1#16 = .instr (.seImm 5 0xE1#8) ∧ decodeWord 0x8F24#16 = .instr (.addReg 15 2) ∧
  decodeWord 0xB300#16 = .instr (.jpV0 0x300#12) ∧ decodeWord 0xD235#16 = .instr (.drw 2 3 5#4) ∧
  decodeWord 0xE1A1#16 = .instr (.sknp 1) ∧ decodeWord 0xF265#16 = .instr (.ldVxMem 2) ∧
  decodeWord 0x8128#16 = .rejected (.unknownAlu 8#4)

/-! ## The step -/

/-- When the two bytes at `PC`, the one at the lower address first, decode to an instruction, the step is its handler run on the fetched
state, then the end of the step (spec/40_cycle_driver.md section 2). The fetched state is `s` with a fresh record and `PC` advanced by 2 and
wrapped (the wrap: the spec's decision D6, D15); the end of the step is the decay and the latch. Model's choice: a fault passes through
(log 20), and the step uses up its inputs (log 1). -/
def Obligations.StepRunsTheDecodedInstruction : Prop :=
  (∀ (s : State) (i : Instr), s.mode = .running → s.pc.toNat ≤ 0xFFF →
    decodeBytes [s.byte s.pc.toNat, s.byte ((s.pc.toNat + 1) % 0x1000)] = (.instr i, []) →
    i.wellFormed = true →
    step s = (match exec i s.fetched with
      | .next t => .next t.endStep
      | .fault r => .fault r
      | .refused r => .refused r)) ∧
  (∀ s : State, s.pc.toNat ≤ 0xFFF →
    s.fetched.pc.toNat = (s.pc.toNat + 2) % 0x1000 ∧
    s.fetched.diag.pc.toNat = s.pc.toNat ∧
    s.fetched.diag.opcode = some (s.byte s.pc.toNat ++ s.byte ((s.pc.toNat + 1) % 0x1000)) ∧
    (∀ c : Cause, s.fetched.diag.has c = true ↔ c = .boundViolation ∧ 0xFFF < s.pc.toNat + 2) ∧
    OnlyChanges (fun p => p = .pc ∨ p = .causes ∨ p = .diagPc ∨ p = .diagOpcode) s s.fetched) ∧
  (∀ t : State, StepEnd t t.dt t.endStep ∧
    OnlyChanges (fun p => p = .dt ∨ p = .kprev ∨ p = .sched ∨ p = .stepNo) t t.endStep)

/-- An unknown opcode is a no-op that reports `UnknownOpcode`; `PC` keeps the normal advance; decay and latch happen as in any step
(spec/60_exceptions.md section 1, the unknown-opcode policy). The wrap of the advance, and its report, are the spec's decision D6 (log 8); that
the step's inputs are used up, two clauses of `StepEnd`, is the model's choice (log 1). -/
def Obligations.UnknownOpcodeIsAReportedNoOp : Prop :=
  ∀ (s : State) (r : Reject), s.mode = .running → s.pc.toNat ≤ 0xFFF → decodeWord s.opcodeAtPc = .rejected r →
    ∃ t, step s = .next t ∧ t.pc.toNat = (s.pc.toNat + 2) % 0x1000 ∧
      (∀ c : Cause, t.diag.has c = true ↔ c = .unknownOpcode ∨ (c = .boundViolation ∧ 0xFFF < s.pc.toNat + 2)) ∧
      StepEnd s s.dt t ∧
      OnlyChanges (fun p => p = .pc ∨ p = .dt ∨ p = .kprev ∨ p = .causes ∨ p = .diagPc ∨ p = .diagOpcode ∨
        p = .sched ∨ p = .stepNo) s t

/-- An `AwaitKey` step in which no key is newly pressed writes only `DT` and `KPREV` and reports nothing (spec/40_cycle_driver.md section 2).
Newly pressed is read through `KPREV`, the spec's decision D12 (log 12). The record is written as in every step; that the step's inputs are
used up, two clauses of `StepEnd`, is the model's choice (log 1). -/
def Obligations.AwaitKeyWithoutANewKeyOnlyDecaysAndLatches : Prop :=
  ∀ s : State, s.mode = .awaitKey → (∀ k : Key, ¬ s.newKey k) →
    ∃ t, step s = .next t ∧ t.diag.valid = false ∧ t.diag.opcode = none ∧ StepEnd s s.dt t ∧
      OnlyChanges (fun p => p = .dt ∨ p = .kprev ∨ p = .causes ∨ p = .diagPc ∨ p = .diagOpcode ∨
        p = .sched ∨ p = .stepNo) s t

/-- An `AwaitKey` step with a newly pressed key puts the least such key's index into `V[WAITX]` and returns to `Running`; `PC` stays, nothing
is fetched (spec/40_cycle_driver.md section 2; the edge reference is the spec's decision D12, the least key D13: log 12, 13). That the step's
inputs are used up, two clauses of `StepEnd`, is the model's choice (log 1). -/
def Obligations.AwaitKeyResolvesWithTheLeastNewKey : Prop :=
  ∀ (s : State) (k : Key), s.mode = .awaitKey → s.newKey k → (∀ j : Key, j.val < k.val → ¬ s.newKey j) →
    ∃ t, step s = .next t ∧ (t.getV s.waitx).toNat = k.val ∧ t.mode = .running ∧
      t.diag.valid = false ∧ t.diag.opcode = none ∧ StepEnd s s.dt t ∧
      OnlyChanges (fun p => p = .v s.waitx ∨ p = .mode ∨ p = .dt ∨ p = .kprev ∨ p = .causes ∨ p = .diagPc ∨
        p = .diagOpcode ∨ p = .sched ∨ p = .stepNo) s t

/-! ## Control transfer -/

/-- Family 0x0 is decoded on the full opcode: 0x00E0 is `00E0`, 0x00EE is `00EE`, every other word is `0nnn`, which does nothing and reports
nothing (R105). -/
def Obligations.FamilyZeroIsFullWordAndSysIsSilent : Prop :=
  (∀ w : Word, fieldOp w = 0x0#4 →
    (w = 0x00E0#16 → decodeWord w = .instr .cls) ∧ (w = 0x00EE#16 → decodeWord w = .instr .ret) ∧
    (w ≠ 0x00E0#16 → w ≠ 0x00EE#16 → decodeWord w = .instr (.sys (fieldNnn w)))) ∧
  (∀ (s : State) (nnn : BitVec 12), ∃ t, exec (.sys nnn) s = .next t ∧ OnlyChanges (fun _ => False) s t)

/-- `1nnn` sets `PC` to `nnn` and changes nothing else (R163). -/
def Obligations.JumpSetsThePc : Prop :=
  (∀ w : Word, fieldOp w = 0x1#4 → decodeWord w = .instr (.jp (fieldNnn w))) ∧
  (∀ (s : State) (nnn : BitVec 12), ∃ t, exec (.jp nnn) s = .next t ∧ t.pc.toNat = nnn.toNat ∧
    OnlyChanges (fun p => p = .pc) s t)

/-- `Bnnn` sets `PC` to `wrapA(nnn + V0)` and reports `BoundViolation` when the sum passes 0xFFF (R166). -/
def Obligations.JumpWithOffsetAddsV0AndWraps : Prop :=
  (∀ w : Word, fieldOp w = 0xB#4 → decodeWord w = .instr (.jpV0 (fieldNnn w))) ∧
  (∀ (s : State) (nnn : BitVec 12), ∃ t, exec (.jpV0 nnn) s = .next t ∧
    t.pc.toNat = (nnn.toNat + (s.getV 0).toNat) % 0x1000 ∧
    Reports (0xFFF < nnn.toNat + (s.getV 0).toNat) .boundViolation s t ∧
    OnlyChanges (fun p => p = .pc ∨ p = .causes) s t)

/-- `2nnn` with room on the stack pushes the advanced `PC` and jumps; with a full stack it is ignored whole and reports `StackOverflow`
(spec/41_control_flow.md, the rule for `2nnn`; the full stack is the spec's decision D8, log 9). -/
def Obligations.CallPushesTheReturnAddressAndJumps : Prop :=
  (∀ w : Word, fieldOp w = 0x2#4 → decodeWord w = .instr (.call (fieldNnn w))) ∧
  (∀ (s : State) (nnn : BitVec 12) (h : s.sp.val < 16), ∃ t, exec (.call nnn) s = .next t ∧
    t.pc.toNat = nnn.toNat ∧ t.sp.val = s.sp.val + 1 ∧ t.slot ⟨s.sp.val, h⟩ = s.pc ∧
    OnlyChanges (fun p => p = .pc ∨ p = .sp ∨ p = .slot ⟨s.sp.val, h⟩) s t) ∧
  (∀ (s : State) (nnn : BitVec 12), s.sp.val = 16 → ∃ t, exec (.call nnn) s = .next t ∧
    Reports True .stackOverflow s t ∧ OnlyChanges (fun p => p = .causes) s t)

/-- `00EE` with a return address pops it into `PC`, the slot keeps its value; with an empty stack it is ignored and reports `StackUnderflow`
(spec/41_control_flow.md, the rule for `00EE`; the empty stack is the spec's decision D9, log 10; the kept slot D29, log 26). -/
def Obligations.ReturnPopsTheReturnAddress : Prop :=
  (∀ (s : State) (h : 0 < s.sp.val), ∃ t, exec .ret s = .next t ∧
    t.pc = s.slot ⟨s.sp.val - 1, by omega⟩ ∧ t.sp.val = s.sp.val - 1 ∧
    OnlyChanges (fun p => p = .pc ∨ p = .sp) s t) ∧
  (∀ s : State, s.sp.val = 0 → ∃ t, exec .ret s = .next t ∧
    Reports True .stackUnderflow s t ∧ OnlyChanges (fun p => p = .causes) s t)

/-- A return on the stack that a call left resumes after the call (spec/41_control_flow.md, "so the matching `00EE` resumes after the call"). -/
def Obligations.ReturnResumesAfterTheMatchingCall : Prop :=
  ∀ (s t t' : State) (nnn : BitVec 12), s.sp.val < 16 → exec (.call nnn) s = .next t →
    t'.sp = t.sp → (∀ j, t'.slot j = t.slot j) →
    ∃ u, exec .ret t' = .next u ∧ u.pc = s.pc ∧ u.sp = s.sp

/-! ## Skips -/

/-- What a skip instruction does when its condition is `c` (R180): the advanced `PC` plus 2, wrapped and reported past 0xFFF, or nothing. -/
def SkipsWhen (i : Instr) (c : Prop) (s : State) : Prop :=
  ∃ t, exec i s = .next t ∧
    (c → t.pc.toNat = (s.pc.toNat + 2) % 0x1000) ∧ (¬ c → t.pc = s.pc) ∧
    Reports (c ∧ 0xFFF < s.pc.toNat + 2) .boundViolation s t ∧
    OnlyChanges (fun p => p = .pc ∨ p = .causes) s t

/-- `3xkk`, `4xkk`, `5xy0`, `9xy0` skip on equality or difference of unsigned bytes (R180, R181, R182, R183, R184). -/
def Obligations.RegisterSkipsCompareAndSkip : Prop :=
  (∀ w : Word,
    (fieldOp w = 0x3#4 → decodeWord w = .instr (.seImm (fieldX w) (fieldKk w))) ∧
    (fieldOp w = 0x4#4 → decodeWord w = .instr (.sneImm (fieldX w) (fieldKk w))) ∧
    (fieldOp w = 0x5#4 → decodeWord w = .instr (.seReg (fieldX w) (fieldY w))) ∧
    (fieldOp w = 0x9#4 → decodeWord w = .instr (.sneReg (fieldX w) (fieldY w)))) ∧
  (∀ (s : State) (x y : VReg) (kk : Byte),
    SkipsWhen (.seImm x kk) ((s.getV x).toNat = kk.toNat) s ∧
    SkipsWhen (.sneImm x kk) ((s.getV x).toNat ≠ kk.toNat) s ∧
    SkipsWhen (.seReg x y) ((s.getV x).toNat = (s.getV y).toNat) s ∧
    SkipsWhen (.sneReg x y) ((s.getV x).toNat ≠ (s.getV y).toNat) s)

/-- `Ex9E` and `ExA1` skip on the level of the key that the low nibble of `Vx` names, reporting `BoundViolation` when `Vx` is above 0xF or the
skip wraps (spec/46_keypad_timers.md; the low nibble is the spec's decision D11, log 11). -/
def Obligations.KeySkipsTestTheKeyLevel : Prop :=
  (∀ w : Word, fieldOp w = 0xE#4 →
    (fieldKk w = 0x9E#8 → decodeWord w = .instr (.skp (fieldX w))) ∧
    (fieldKk w = 0xA1#8 → decodeWord w = .instr (.sknp (fieldX w)))) ∧
  (∀ (s : State) (x : VReg) (k : Key), k.val = (s.getV x).toNat % 16 →
    (∃ t, exec (.skp x) s = .next t ∧
      (s.input.keys.getLsbD k.val = true → t.pc.toNat = (s.pc.toNat + 2) % 0x1000) ∧
      (s.input.keys.getLsbD k.val = false → t.pc = s.pc) ∧
      Reports (0xF < (s.getV x).toNat ∨ (s.input.keys.getLsbD k.val = true ∧ 0xFFF < s.pc.toNat + 2)) .boundViolation s t ∧
      OnlyChanges (fun p => p = .pc ∨ p = .causes) s t) ∧
    (∃ t, exec (.sknp x) s = .next t ∧
      (s.input.keys.getLsbD k.val = false → t.pc.toNat = (s.pc.toNat + 2) % 0x1000) ∧
      (s.input.keys.getLsbD k.val = true → t.pc = s.pc) ∧
      Reports (0xF < (s.getV x).toNat ∨ (s.input.keys.getLsbD k.val = false ∧ 0xFFF < s.pc.toNat + 2)) .boundViolation s t ∧
      OnlyChanges (fun p => p = .pc ∨ p = .causes) s t))

/-! ## Registers and ALU -/

/-- `6xkk`, `7xkk`, `8xy0` write `Vx` and nothing else; `7xkk` wraps with no flag (R190, R191, R192). -/
def Obligations.RegisterLoadsWriteVxAlone : Prop :=
  (∀ w : Word,
    (fieldOp w = 0x6#4 → decodeWord w = .instr (.ldImm (fieldX w) (fieldKk w))) ∧
    (fieldOp w = 0x7#4 → decodeWord w = .instr (.addImm (fieldX w) (fieldKk w))) ∧
    (fieldOp w = 0x8#4 → fieldN w = 0x0#4 → decodeWord w = .instr (.ldReg (fieldX w) (fieldY w)))) ∧
  (∀ (s : State) (x y : VReg) (kk : Byte),
    (∃ t, exec (.ldImm x kk) s = .next t ∧ t.getV x = kk ∧ OnlyChanges (fun p => p = .v x) s t) ∧
    (∃ t, exec (.addImm x kk) s = .next t ∧ (t.getV x).toNat = ((s.getV x).toNat + kk.toNat) % 256 ∧
      OnlyChanges (fun p => p = .v x) s t) ∧
    (∃ t, exec (.ldReg x y) s = .next t ∧ t.getV x = s.getV y ∧ OnlyChanges (fun p => p = .v x) s t))

/-- `8xy1`, `8xy2`, `8xy3` write the bitwise result to `Vx` and nothing else, `VF` included (R193, R194, R195). -/
def Obligations.LogicWritesVxWithoutAFlag : Prop :=
  (∀ w : Word, fieldOp w = 0x8#4 →
    (fieldN w = 0x1#4 → decodeWord w = .instr (.orReg (fieldX w) (fieldY w))) ∧
    (fieldN w = 0x2#4 → decodeWord w = .instr (.andReg (fieldX w) (fieldY w))) ∧
    (fieldN w = 0x3#4 → decodeWord w = .instr (.xorReg (fieldX w) (fieldY w)))) ∧
  (∀ (s : State) (x y : VReg),
    (∃ t, exec (.orReg x y) s = .next t ∧
      (∀ b, b < 8 → (t.getV x).getLsbD b = ((s.getV x).getLsbD b || (s.getV y).getLsbD b)) ∧
      OnlyChanges (fun p => p = .v x) s t) ∧
    (∃ t, exec (.andReg x y) s = .next t ∧
      (∀ b, b < 8 → (t.getV x).getLsbD b = ((s.getV x).getLsbD b && (s.getV y).getLsbD b)) ∧
      OnlyChanges (fun p => p = .v x) s t) ∧
    (∃ t, exec (.xorReg x y) s = .next t ∧
      (∀ b, b < 8 → (t.getV x).getLsbD b = ((s.getV x).getLsbD b ^^ (s.getV y).getLsbD b)) ∧
      OnlyChanges (fun p => p = .v x) s t))

/-- `8xy4` writes the sum mod 256 to `Vx`, then the carry to `VF`; with `x = 0xF` the carry stays (R196). -/
def Obligations.AddWritesTheSumThenTheCarry : Prop :=
  (∀ w : Word, fieldOp w = 0x8#4 → fieldN w = 0x4#4 → decodeWord w = .instr (.addReg (fieldX w) (fieldY w))) ∧
  (∀ (s : State) (x y : VReg), ∃ t, exec (.addReg x y) s = .next t ∧
    (x ≠ 15 → (t.getV x).toNat = ((s.getV x).toNat + (s.getV y).toNat) % 256) ∧
    t.getV 15 = (if 255 < (s.getV x).toNat + (s.getV y).toNat then 1#8 else 0#8) ∧
    OnlyChanges (fun p => p = .v x ∨ p = .v 15) s t)

/-- `8xy5` and `8xy7` write the difference mod 256 to `Vx`, then "minuend strictly greater than subtrahend" to `VF` (R197, R199). -/
def Obligations.SubtractWritesTheDifferenceThenTheStrictFlag : Prop :=
  (∀ w : Word, fieldOp w = 0x8#4 →
    (fieldN w = 0x5#4 → decodeWord w = .instr (.subReg (fieldX w) (fieldY w))) ∧
    (fieldN w = 0x7#4 → decodeWord w = .instr (.subnReg (fieldX w) (fieldY w)))) ∧
  (∀ (s : State) (x y : VReg),
    (∃ t, exec (.subReg x y) s = .next t ∧
      (x ≠ 15 → ((t.getV x).toNat : Int) = (((s.getV x).toNat : Int) - (s.getV y).toNat) % 256) ∧
      t.getV 15 = (if (s.getV y).toNat < (s.getV x).toNat then 1#8 else 0#8) ∧
      OnlyChanges (fun p => p = .v x ∨ p = .v 15) s t) ∧
    (∃ t, exec (.subnReg x y) s = .next t ∧
      (x ≠ 15 → ((t.getV x).toNat : Int) = (((s.getV y).toNat : Int) - (s.getV x).toNat) % 256) ∧
      t.getV 15 = (if (s.getV x).toNat < (s.getV y).toNat then 1#8 else 0#8) ∧
      OnlyChanges (fun p => p = .v x ∨ p = .v 15) s t))

/-- `8xy6` and `8xyE` shift `Vx` by 1 in place, then put the bit shifted out into `VF`; `y` is ignored (R198, R200). -/
def Obligations.ShiftsMoveOneBitIntoVf : Prop :=
  (∀ w : Word, fieldOp w = 0x8#4 →
    (fieldN w = 0x6#4 → decodeWord w = .instr (.shr (fieldX w))) ∧
    (fieldN w = 0xE#4 → decodeWord w = .instr (.shl (fieldX w)))) ∧
  (∀ (s : State) (x : VReg),
    (∃ t, exec (.shr x) s = .next t ∧ (x ≠ 15 → (t.getV x).toNat = (s.getV x).toNat / 2) ∧
      (t.getV 15).toNat = (s.getV x).toNat % 2 ∧ OnlyChanges (fun p => p = .v x ∨ p = .v 15) s t) ∧
    (∃ t, exec (.shl x) s = .next t ∧ (x ≠ 15 → (t.getV x).toNat = 2 * (s.getV x).toNat % 256) ∧
      (t.getV 15).toNat = (s.getV x).toNat / 128 ∧ OnlyChanges (fun p => p = .v x ∨ p = .v 15) s t))

/-- `Cxkk` writes the step's random byte AND `kk` to `Vx`, for every value of that byte (spec/43_alu.md, the rule for `Cxkk`; the byte as a
free input is the spec's decision D19, log 1). -/
def Obligations.RandomAndImmediateForEveryByte : Prop :=
  (∀ w : Word, fieldOp w = 0xC#4 → decodeWord w = .instr (.rnd (fieldX w) (fieldKk w))) ∧
  (∀ (s : State) (x : VReg) (kk : Byte), ∃ t, exec (.rnd x kk) s = .next t ∧
    (∀ b, b < 8 → (t.getV x).getLsbD b = (s.input.rnd.getLsbD b && kk.getLsbD b)) ∧
    OnlyChanges (fun p => p = .v x) s t)

/-! ## Index register and memory -/

/-- `Annn` sets `I` to `nnn`; `Fx29` sets `I` to 5 times the whole byte `Vx`; neither reports anything (R220, R226). -/
def Obligations.IndexLoadsSetI : Prop :=
  (∀ w : Word,
    (fieldOp w = 0xA#4 → decodeWord w = .instr (.ldI (fieldNnn w))) ∧
    (fieldOp w = 0xF#4 → fieldKk w = 0x29#8 → decodeWord w = .instr (.ldFVx (fieldX w)))) ∧
  (∀ (s : State) (nnn : BitVec 12) (x : VReg),
    (∃ t, exec (.ldI nnn) s = .next t ∧ t.i.toNat = nnn.toNat ∧ OnlyChanges (fun p => p = .i) s t) ∧
    (∃ t, exec (.ldFVx x) s = .next t ∧ t.i.toNat = 5 * (s.getV x).toNat ∧ OnlyChanges (fun p => p = .i) s t))

/-- `Fx1E` sets `I` to `wrapA(I + Vx)`, reports `BoundViolation` when the sum passes 0xFFF, and writes no flag (R225). -/
def Obligations.IndexAddWrapsWithoutAFlag : Prop :=
  (∀ w : Word, fieldOp w = 0xF#4 → fieldKk w = 0x1E#8 → decodeWord w = .instr (.addIVx (fieldX w))) ∧
  (∀ (s : State) (x : VReg), ∃ t, exec (.addIVx x) s = .next t ∧
    t.i.toNat = (s.i.toNat + (s.getV x).toNat) % 0x1000 ∧
    Reports (0xFFF < s.i.toNat + (s.getV x).toNat) .boundViolation s t ∧
    OnlyChanges (fun p => p = .i ∨ p = .causes) s t)

/-- `Fx33` stores the hundreds, tens and ones of `Vx` at `I`, `I+1`, `I+2`, each address wrapped, and leaves `I` and every other byte as it
was (R227). The stored values are stated for a memory in canonical form, an invariant of the model. -/
def Obligations.BcdStoresThreeDigits : Prop :=
  (∀ w : Word, fieldOp w = 0xF#4 → fieldKk w = 0x33#8 → decodeWord w = .instr (.ldBVx (fieldX w))) ∧
  (∀ (s : State) (x : VReg), ∃ t, exec (.ldBVx x) s = .next t ∧
    (Memory.wf s.mem = true →
      (t.byte (s.i.toNat % 0x1000)).toNat = (s.getV x).toNat / 100 ∧
      (t.byte ((s.i.toNat + 1) % 0x1000)).toNat = (s.getV x).toNat / 10 % 10 ∧
      (t.byte ((s.i.toNat + 2) % 0x1000)).toNat = (s.getV x).toNat % 10) ∧
    Reports (0xFFF < s.i.toNat + 2) .boundViolation s t ∧
    OnlyChanges (fun p => p = .causes ∨ p = .byte (s.i.toNat % 0x1000) ∨ p = .byte ((s.i.toNat + 1) % 0x1000) ∨
      p = .byte ((s.i.toNat + 2) % 0x1000)) s t)

/-- `Fx55` stores `V0`..`Vx` at `I`..`I+x`, each address wrapped, and leaves `I` and every other byte as it was (R228). The stored values are
stated for a memory in canonical form, an invariant of the model. -/
def Obligations.BlockStoreWritesV0ToVx : Prop :=
  (∀ w : Word, fieldOp w = 0xF#4 → fieldKk w = 0x55#8 → decodeWord w = .instr (.ldMemVx (fieldX w))) ∧
  (∀ (s : State) (x : VReg), ∃ t, exec (.ldMemVx x) s = .next t ∧
    (Memory.wf s.mem = true → ∀ k : VReg, k.val ≤ x.val → t.byte ((s.i.toNat + k.val) % 0x1000) = s.getV k) ∧
    Reports (∃ k : VReg, k.val ≤ x.val ∧ 0xFFF < s.i.toNat + k.val) .boundViolation s t ∧
    OnlyChanges (fun p => p = .causes ∨ ∃ k : VReg, k.val ≤ x.val ∧ p = .byte ((s.i.toNat + k.val) % 0x1000)) s t)

/-- `Fx65` loads `V0`..`Vx` from `I`..`I+x`, each address wrapped; `I`, the registers above `x` and memory are unchanged (R229). -/
def Obligations.BlockLoadReadsV0ToVx : Prop :=
  (∀ w : Word, fieldOp w = 0xF#4 → fieldKk w = 0x65#8 → decodeWord w = .instr (.ldVxMem (fieldX w))) ∧
  (∀ (s : State) (x : VReg), ∃ t, exec (.ldVxMem x) s = .next t ∧
    (∀ k : VReg, k.val ≤ x.val → t.getV k = s.byte ((s.i.toNat + k.val) % 0x1000)) ∧
    Reports (∃ k : VReg, k.val ≤ x.val ∧ 0xFFF < s.i.toNat + k.val) .boundViolation s t ∧
    OnlyChanges (fun p => p = .causes ∨ ∃ k : VReg, k.val ≤ x.val ∧ p = .v k) s t)

/-- A store is seen by a later fetch: after `Fx55` an instruction fetched inside the stored bytes is made of the stored registers
(spec/20_memory.md section 5, "A store is seen by every later instruction fetch", which the spec marks as derived). -/
def Obligations.StoredRegistersAreFetchedAsAnOpcode : Prop :=
  ∀ (s t : State) (x k l : VReg), Memory.wf s.mem = true → exec (.ldMemVx x) s = .next t →
    l.val = k.val + 1 → l.val ≤ x.val →
    t.fetch ((s.i.toNat + k.val) % 0x1000) = s.getV k ++ s.getV l

/-! ## Display -/

/-- `00E0` turns every pixel off and changes nothing else (R240). -/
def Obligations.ClearTurnsEveryPixelOff : Prop :=
  decodeWord 0x00E0#16 = .instr .cls ∧
  (∀ s : State, ∃ t, exec .cls s = .next t ∧ (∀ py px, t.fbPort py px = false) ∧
    OnlyChanges (fun p => ∃ py px, p = .pixel py px) s t)

/-- `Dxyn` inverts exactly the pixels under the sprite's set bits, wrapping on both axes, and sets `VF` to 1 exactly when one of them was on,
else to 0 (spec/45_display.md, the rule for `Dxyn`; the bit order is the spec's decision D5, log 18). -/
def Obligations.DrawXorsTheSpriteAndFlagsTheCollision : Prop :=
  (∀ w : Word, fieldOp w = 0xD#4 → decodeWord w = .instr (.drw (fieldX w) (fieldY w) (fieldN w))) ∧
  (∀ (s : State) (x y : VReg) (n : BitVec 4), ∃ t, exec (.drw x y n) s = .next t ∧
    (∀ py px, t.fbPort py px = (s.fbPort py px ^^ s.spriteBit x y n py px)) ∧
    ((∃ py px, s.spriteBit x y n py px = true ∧ s.fbPort py px = true) → t.getV 15 = 1#8) ∧
    ((¬ ∃ py px, s.spriteBit x y n py px = true ∧ s.fbPort py px = true) → t.getV 15 = 0#8) ∧
    Reports (∃ r, r < n.toNat ∧ 0xFFF < s.i.toNat + r) .boundViolation s t ∧
    OnlyChanges (fun p => p = .causes ∨ p = .v 15 ∨ ∃ py px, p = .pixel py px) s t)

/-- A second identical draw at the same position restores the framebuffer, and sets `VF` to 1 exactly when the first draw turned a pixel on
(spec/45_display.md, the rule on two identical draws, which the spec marks as derived; 90_conflicts.md C8). -/
def Obligations.SecondIdenticalDrawRestoresTheFramebuffer : Prop :=
  ∀ (s t : State) (x y : VReg) (n : BitVec 4), exec (.drw x y n) s = .next t →
    (t.getV x).toNat % 64 = (s.getV x).toNat % 64 → (t.getV y).toNat % 32 = (s.getV y).toNat % 32 →
    ∃ u, exec (.drw x y n) t = .next u ∧ (∀ py px, u.fbPort py px = s.fbPort py px) ∧
      (u.getV 15 = 1#8 ↔ ∃ py px, s.fbPort py px = false ∧ t.fbPort py px = true)

/-! ## Keypad and timers -/

/-- `Fx07` reads `DT`, `Fx15` sets it, `Fx18` sets `ST`; each changes nothing else (spec/46_keypad_timers.md; the decay of the step is
stated by `EveryStepDecaysOnceAndLatches`). -/
def Obligations.TimerInstructionsMoveOneByte : Prop :=
  (∀ w : Word, fieldOp w = 0xF#4 →
    (fieldKk w = 0x07#8 → decodeWord w = .instr (.ldVxDt (fieldX w))) ∧
    (fieldKk w = 0x15#8 → decodeWord w = .instr (.ldDtVx (fieldX w))) ∧
    (fieldKk w = 0x18#8 → decodeWord w = .instr (.ldStVx (fieldX w)))) ∧
  (∀ (s : State) (x : VReg),
    (∃ t, exec (.ldVxDt x) s = .next t ∧ t.getV x = s.dt ∧ OnlyChanges (fun p => p = .v x) s t) ∧
    (∃ t, exec (.ldDtVx x) s = .next t ∧ t.dt = s.getV x ∧ OnlyChanges (fun p => p = .dt) s t) ∧
    (∃ t, exec (.ldStVx x) s = .next t ∧ t.st = s.getV x ∧ OnlyChanges (fun p => p = .st) s t))

/-- `Fx0A` latches `x` in `WAITX` and enters `AwaitKey`; `Vx` and the advanced `PC` are not touched (spec/46_keypad_timers.md, the rule for
`Fx0A`; `WAITX` is the spec's decision D12, log 12). -/
def Obligations.KeyWaitLatchesTheRegisterAndSuspends : Prop :=
  (∀ w : Word, fieldOp w = 0xF#4 → fieldKk w = 0x0A#8 → decodeWord w = .instr (.ldVxK (fieldX w))) ∧
  (∀ (s : State) (x : VReg), ∃ t, exec (.ldVxK x) s = .next t ∧ t.waitx = x ∧ t.mode = .awaitKey ∧
    OnlyChanges (fun p => p = .waitx ∨ p = .mode) s t)

/-! ## The whole machine -/

/-- Every step decays `DT` at most once, under `tick`, never below 0, from the value the handler left, and latches the keys
(spec/40_cycle_driver.md section 2; the meaning of `tick` is the spec's decision D18, the latch D12). -/
def Obligations.EveryStepDecaysOnceAndLatches : Prop :=
  ∀ s t : State, step s = .next t →
    (∀ x, s.runs (.ldDtVx x) → StepEnd s (s.getV x) t) ∧ ((∀ x, ¬ s.runs (.ldDtVx x)) → StepEnd s s.dt t)

/-- Every step's record holds the `PC` at its start and the word it fetched, none in `AwaitKey` (spec/60_exceptions.md section 1; the record's
layout is the spec's decision D10, log 19). -/
def Obligations.EveryStepRecordsItsPcAndOpcode : Prop :=
  ∀ s t : State, step s = .next t → s.pc.toNat ≤ 0xFFF →
    t.diag.pc.toNat = s.pc.toNat ∧ (s.mode = .running → t.diag.opcode = some s.opcodeAtPc) ∧
    (s.mode = .awaitKey → t.diag.opcode = none)

/-- A step's record holds each cause exactly when the condition that raises it holds (spec/60_exceptions.md section 1, the table of causes). The
wrapped addresses and the low nibble of a key index are the spec's decisions D6 and D11. -/
def Obligations.CausesAreReportedExactlyWhenRaised : Prop :=
  ∀ s t : State, step s = .next t →
    (t.diag.has .unknownOpcode = true ↔ s.mode = .running ∧ ∃ r, decodeWord s.opcodeAtPc = .rejected r) ∧
    (t.diag.has .stackOverflow = true ↔ s.sp.val = 16 ∧ ∃ nnn, s.runs (.call nnn)) ∧
    (t.diag.has .stackUnderflow = true ↔ s.sp.val = 0 ∧ s.runs .ret) ∧
    (t.diag.has .boundViolation = true ↔
      s.mode = .running ∧ (0xFFF < s.pc.toNat + 2 ∨ ∃ i, s.runs i ∧ exceedsBound s.fetched i)) ∧
    (t.diag.valid = true ↔ ∃ c : Cause, t.diag.has c = true)

/-- Only `2nnn` and `00EE` change `SP` or a stack slot (spec/41_control_flow.md, "No instruction reads or writes `SP` or `STACK` except", which
the spec marks as derived; spec/10_state.md section 3). -/
def Obligations.OnlyCallAndReturnChangeTheStack : Prop :=
  ∀ s t : State, step s = .next t → (t.sp ≠ s.sp ∨ ∃ j, t.slot j ≠ s.slot j) → s.runs .ret ∨ ∃ nnn, s.runs (.call nnn)

/-- Only `00E0` and `Dxyn` change a pixel (spec/10_state.md section 4). -/
def Obligations.OnlyClearAndDrawChangeTheFramebuffer : Prop :=
  ∀ s t : State, step s = .next t → (∃ py px, t.fbPort py px ≠ s.fbPort py px) →
    s.runs .cls ∨ ∃ x y n, s.runs (.drw x y n)

/-- Only `Fx33` and `Fx55` change a byte of memory (spec/20_memory.md section 1). -/
def Obligations.OnlyStoresChangeMemory : Prop :=
  ∀ s t : State, step s = .next t → (∃ a, t.byte a ≠ s.byte a) → ∃ x, s.runs (.ldBVx x) ∨ s.runs (.ldMemVx x)

/-- Only `Annn`, `Fx1E` and `Fx29` change `I`, and only `Fx18` changes `ST` (spec/10_state.md section 3; that `ST` does not decay is the
spec's decision D17, log 16). -/
def Obligations.OnlyTheirWritersChangeIndexAndSoundTimer : Prop :=
  ∀ s t : State, step s = .next t →
    (t.i ≠ s.i → (∃ nnn, s.runs (.ldI nnn)) ∨ ∃ x, s.runs (.addIVx x) ∨ s.runs (.ldFVx x)) ∧
    (t.st ≠ s.st → ∃ x, s.runs (.ldStVx x))

/-- Running is the mode at reset; only `Fx0A` enters `AwaitKey` and always does (R42, R273); a step from `AwaitKey` returns to `Running` exactly
when some key is newly pressed (R42, R136), which is read through `KPREV`, the spec's decision D12 (log 12). -/
def Obligations.OnlyKeyWaitAndKeyEdgeChangeTheMode : Prop :=
  State.reset.mode = .running ∧
  ∀ s t : State, step s = .next t →
    (s.mode = .running → (t.mode = .awaitKey ↔ ∃ x, s.runs (.ldVxK x))) ∧
    (s.mode = .awaitKey → (t.mode = .running ↔ ∃ k, s.newKey k))

/-- `VF` changes only by a flag writer, by an instruction whose data register is `VF`, or by a key wait that resolves into it; a flag writer
leaves 0 or 1 in it (spec/10_state.md section 2). -/
def Obligations.OnlyListedWritersChangeTheFlagRegister : Prop :=
  ∀ s t : State, step s = .next t →
    (t.getV 15 ≠ s.getV 15 →
      (∃ i, s.runs i ∧ (i.setsFlag = true ∨ i.dataDest = some 15)) ∨
      (s.mode = .awaitKey ∧ s.waitx = 15 ∧ ∃ k, s.newKey k)) ∧
    (∀ i, s.runs i → i.setsFlag = true → t.getV 15 = 0#8 ∨ t.getV 15 = 1#8)

/-- A handler other than `Ex9E`, `ExA1` and `Cxkk` reads no input; the key tests read the keys alone, `Cxkk` the random byte alone
(spec/40_cycle_driver.md section 2, "A handler reads `in.keys` (`Ex9E`, `ExA1`) and `in.rnd` (`Cxkk`) and no other input"). -/
def Obligations.HandlersReadNoOtherInput : Prop :=
  ∀ (i : Instr) (s : State) (sched : List StepInput) (n : Nat),
    (∀ x, (i = .skp x ∨ i = .sknp x) → (s.withInputs sched n).input.keys = s.input.keys) →
    (∀ x kk, i = .rnd x kk → (s.withInputs sched n).input.rnd = s.input.rnd) →
    exec i (s.withInputs sched n) = outcomeWithInputs sched n (exec i s)

/-- A step from a halt loop executes the jump and stays in the loop: only `DT`, the key latch, the record and the model's input fields change
(spec/40_cycle_driver.md section 3, "FURTHER STEPS RE-EXECUTE THE HALT LOOP"; the halt loop is the spec's decision D23, log 28; the input
fields are the model's, log 1). -/
def Obligations.HaltLoopIsReexecuted : Prop :=
  ∀ s : State, s.atHaltLoop = true → ∃ t, step s = .next t ∧ t.atHaltLoop = true ∧
    OnlyChanges (fun p => p = .dt ∨ p = .kprev ∨ p = .causes ∨ p = .diagPc ∨ p = .diagOpcode ∨ p = .sched ∨
      p = .stepNo) s t

/-- The invariant is kept by every step from every state that meets it: `PC` and `I` at most 0xFFF, live return addresses at most 0xFFF (which
the spec marks as derived, spec/10_state.md section 3), the memory in canonical form (model's choice, log 21). -/
def Obligations.StepKeepsTheInvariant : Prop :=
  ∀ s t : State, s.Inv → step s = .next t → t.Inv

/-- The state after reset meets the invariant (spec/10_state.md section 6). -/
def Obligations.ResetMeetsTheInvariant : Prop := State.reset.Inv

/-- A step stops only where the machine is running with `PC` outside memory, and then with the fault of that name (model's choice, log 20);
from every state that meets the invariant it answers a next state (spec/60_exceptions.md section 4; spec/40_cycle_driver.md section 1). -/
def Obligations.StepNeverStopsWithinTheInvariant : Prop :=
  (∀ s : State, s.mode = .running → 0xFFF < s.pc.toNat → step s = .fault (.pcOutsideMemory s.pc)) ∧
  (∀ s : State, ¬ (s.mode = .running ∧ 0xFFF < s.pc.toNat) → ∃ t, step s = .next t) ∧
  (∀ s : State, s.Inv → ∃ t, step s = .next t)

/-! ## Construction -/

/-- A constructed machine starts at 0x200 in `Running`, its memory holds the font at 0x000..0x04F whatever the ROM, and the ROM verbatim from
0x200 (R51, R53, R343). -/
def Obligations.ConstructionLoadsFontAndRom : Prop :=
  ∀ (font : Vector Byte 80) (policy : ResetPolicy) (rom : List Byte) (s : State), construct font policy rom = some s →
    s.pc.toNat = 0x200 ∧ s.mode = .running ∧
    (∀ a : Fin 80, s.byte a.val = font[a.val]) ∧
    (∀ j : Fin rom.length, s.byte (0x200 + j.val) = rom[j.val])

/-- Construction fails exactly for a ROM longer than 0xDFF bytes (R344). -/
def Obligations.ConstructionRefusesExactlyLongRoms : Prop :=
  ∀ (font : Vector Byte 80) (policy : ResetPolicy) (rom : List Byte),
    construct font policy rom = none ↔ 0xDFF < rom.length

/-- Every constructed machine meets the invariant with an empty stack; under `RESET_POLICY = ZERO` every register, timer, slot, pixel and every
byte outside the font and the ROM is 0, and `State.reset` is the construction from an empty ROM with the default font (spec/10_state.md section
6; the zeros are the spec's decisions D2 and D3, the font D4: log 4, 5, 6, 7). Model's choice: the invariant's bound on `I` under
`UNSPECIFIED`, where the draw of `I` has 12 bits (log 26; R34, which the spec marks as derived, bounds `I` after reset), and its canonical
memory (log 21). -/
def Obligations.ConstructionUnderZeroIsAllZero : Prop :=
  (∀ (font : Vector Byte 80) (policy : ResetPolicy) (rom : List Byte) (s : State), construct font policy rom = some s →
    s.Inv ∧ s.sp.val = 0) ∧
  (∀ (font : Vector Byte 80) (rom : List Byte) (s : State), construct font .zero rom = some s →
    (∀ r, s.getV r = 0#8) ∧ s.i = 0#16 ∧ s.dt = 0#8 ∧ s.st = 0#8 ∧ (∀ j, s.slot j = 0#16) ∧
    (∀ py px, s.fbPort py px = false) ∧ s.waitx = 0 ∧ s.kprev = 0#16 ∧
    (∀ a, 80 ≤ a → a < 0x1000 → (a < 0x200 ∨ 0x200 + rom.length ≤ a) → s.byte a = 0#8)) ∧
  construct defaultFont .zero [] = some State.reset

/-! ## The end of a program -/

/-- The end of a program is the first state, reached after a step, that stands at a halt loop. There is one such state at most; a program that
starts at a halt loop ends after its first step, not before; a step that reaches a halt loop ends the program that starts there; and after the
end the block goes on for any number of steps, standing at the halt loop, with nothing changed but `DT`, the key latch, the record and the
model's input fields (spec/40_cycle_driver.md section 3, the end of a run; the definition is the spec's decision D23, log 28; the input fields
are the model's, log 1). -/
def Obligations.TheEndIsTheFirstHaltLoopReachedByAStep : Prop :=
  (∀ (s t u : State) (n m : Nat), s.EndsAfter n t → s.EndsAfter m u → n = m ∧ t = u) ∧
  (∀ s : State, s.atHaltLoop = true → ¬ s.EndsAfter 0 s ∧ ∃ t, s.EndsAfter 1 t) ∧
  (∀ s t : State, step s = .next t → (s.EndsAfter 1 t ↔ t.atHaltLoop = true)) ∧
  (∀ (s t : State) (n : Nat), s.EndsAfter n t → ∀ k : Nat, ∃ u, s.afterSteps (n + k) = some u ∧ u.atHaltLoop = true ∧
    OnlyChanges (fun p => p = .dt ∨ p = .kprev ∨ p = .causes ∨ p = .diagPc ∨ p = .diagOpcode ∨ p = .sched ∨
      p = .stepNo) t u)
end

