-- ==== Sys2Proof/Laws/Memory.lean ====
section
/-! SUPPORT. The laws of memory: a read after a write, the canonical form kept by every operation, and memories made from an image. -/

namespace Sys2Proof.Machine

theorem Memory.wfFrom_mono {lo lo' : Nat} {m : List Host.Cell} (h : lo' ≤ lo) (hm : Memory.wfFrom lo m = true) :
    Memory.wfFrom lo' m = true := by
  cases m with
  | nil => rfl
  | cons c m =>
    simp only [Memory.wfFrom, Bool.and_eq_true, decide_eq_true_eq] at hm ⊢
    exact ⟨⟨⟨h.trans hm.1.1.1, hm.1.1.2⟩, hm.1.2⟩, hm.2⟩

/-- An address below a canonical list's start reads as unlisted. -/
theorem Memory.read_below {lo a : Nat} {m : List Host.Cell} (hm : Memory.wfFrom lo m = true) (h : a < lo) :
    Memory.read m a = Memory.unlisted a := by
  induction m generalizing lo with
  | nil => rfl
  | cons c m ih =>
    simp only [Memory.wfFrom, Bool.and_eq_true, decide_eq_true_eq] at hm
    have hne : c.1 ≠ a := by omega
    simp only [Memory.read, hne, if_false]
    exact ih hm.2 (by omega)

/-- A write leaves every other address alone (spec/20_memory.md R75). -/
theorem Memory.read_write_of_ne {m : List Host.Cell} {a b : Nat} {v : Byte} (h : b ≠ a) :
    Memory.read (Memory.write m a v) b = Memory.read m b := by
  have h' : a ≠ b := fun e => h e.symm
  induction m with
  | nil => by_cases hv : v = Memory.unlisted a <;> simp [Memory.write, Memory.read, hv, h']
  | cons c m ih =>
    obtain ⟨k, x⟩ := c
    simp only [Memory.write]
    split
    · split <;> simp [Memory.read, h']
    · split
      · rename_i hk
        subst hk
        split <;> simp [Memory.read, h']
      · simp [Memory.read, ih]

/-- A read gives the byte last written there (spec/20_memory.md R75). -/
theorem Memory.read_write_same {lo : Nat} {m : List Host.Cell} {a : Nat} {v : Byte} (hm : Memory.wfFrom lo m = true) :
    Memory.read (Memory.write m a v) a = v := by
  induction m generalizing lo with
  | nil =>
    by_cases hv : v = Memory.unlisted a
    · simp [Memory.write, Memory.read, hv]
    · simp [Memory.write, Memory.read, hv]
  | cons c m ih =>
    obtain ⟨k, x⟩ := c
    simp only [Memory.wfFrom, Bool.and_eq_true, decide_eq_true_eq] at hm
    simp only [Memory.write]
    split
    · rename_i hlt
      split
      · rename_i hv
        have hne : k ≠ a := by omega
        simp only [Memory.read, hne, if_false]
        exact (Memory.read_below hm.2 (by omega)).trans hv.symm
      · simp [Memory.read]
    · split
      · rename_i hk
        split
        · rename_i hv
          exact (Memory.read_below hm.2 (by omega)).trans hv.symm
        · simp [Memory.read]
      · rename_i hk
        have hne : k ≠ a := fun e => hk e.symm
        simp only [Memory.read, hne, if_false]
        exact ih hm.2

theorem Memory.wfFrom_write {lo : Nat} {m : List Host.Cell} {a : Nat} {v : Byte} (hm : Memory.wfFrom lo m = true)
    (hlo : lo ≤ a) (ha : a < Config.memSize) : Memory.wfFrom lo (Memory.write m a v) = true := by
  induction m generalizing lo with
  | nil =>
    by_cases hv : v = Memory.unlisted a
    · simp [Memory.write, Memory.wfFrom, hv]
    · simp [Memory.write, Memory.wfFrom, hv, hlo, ha]
  | cons c m ih =>
    obtain ⟨k, x⟩ := c
    have hc := hm
    simp only [Memory.wfFrom, Bool.and_eq_true, decide_eq_true_eq] at hc
    simp only [Memory.write]
    split
    · rename_i hlt
      split
      · exact hm
      · rename_i hv
        simp only [Memory.wfFrom, Bool.and_eq_true, decide_eq_true_eq]
        exact ⟨⟨⟨hlo, ha⟩, hv⟩, ⟨⟨hlt, hc.1.1.2⟩, hc.1.2⟩, hc.2⟩
    · split
      · rename_i hk
        subst hk
        split
        · exact Memory.wfFrom_mono (by omega) hc.2
        · rename_i hv
          simp only [Memory.wfFrom, Bool.and_eq_true, decide_eq_true_eq]
          exact ⟨⟨hc.1.1, hv⟩, hc.2⟩
      · simp only [Memory.wfFrom, Bool.and_eq_true, decide_eq_true_eq]
        exact ⟨hc.1, ih hc.2 (by omega)⟩

/-- A write inside the address space keeps the canonical form. -/
theorem Memory.wf_write {m : List Host.Cell} {a : Nat} {v : Byte} (hm : Memory.wf m = true) (ha : a < Config.memSize) :
    Memory.wf (Memory.write m a v) = true :=
  Memory.wfFrom_write hm (Nat.zero_le a) ha

theorem wrapA_lt (a : Nat) : wrapA a < Config.memSize := Nat.mod_lt a (by decide)

/-- The store primitive keeps the canonical form. -/
theorem Memory.wf_memWrite (s : State) (a : Nat) (b : Byte) (h : Memory.wf s.mem = true) :
    Memory.wf (s.memWrite a b).mem = true :=
  Memory.wf_write h (wrapA_lt a)

theorem Memory.wf_reset : Memory.wf State.reset.mem = true := rfl

/-! ### Memories made from an image -/

/-- The part of an image's memory from address `lo` on, `n` addresses long. -/
def Memory.imageFrom (f : Nat → Byte) (lo n : Nat) : List Host.Cell :=
  (List.range' lo n).filterMap fun a => if f a = Memory.unlisted a then none else some (a, f a)

theorem Memory.imageFrom_succ (f : Nat → Byte) (lo n : Nat) :
    Memory.imageFrom f lo (n + 1) =
      if f lo = Memory.unlisted lo then Memory.imageFrom f (lo + 1) n else (lo, f lo) :: Memory.imageFrom f (lo + 1) n := by
  unfold Memory.imageFrom
  rw [List.range'_succ, List.filterMap_cons]
  by_cases h : f lo = Memory.unlisted lo <;> simp [h]

theorem Memory.ofImage_eq (f : Nat → Byte) : Memory.ofImage f = Memory.imageFrom f 0 Config.memSize := by
  rw [Memory.ofImage, Memory.imageFrom, List.range_eq_range']

theorem Memory.wfFrom_imageFrom (f : Nat → Byte) (lo n : Nat) (h : lo + n ≤ Config.memSize) :
    Memory.wfFrom lo (Memory.imageFrom f lo n) = true := by
  induction n generalizing lo with
  | zero => rfl
  | succ n ih =>
    rw [Memory.imageFrom_succ]
    split
    · exact Memory.wfFrom_mono (Nat.le_succ lo) (ih (lo + 1) (by omega))
    · rename_i hf
      simp only [Memory.wfFrom, Bool.and_eq_true, decide_eq_true_eq]
      exact ⟨⟨⟨Nat.le_refl lo, by omega⟩, hf⟩, ih (lo + 1) (by omega)⟩

theorem Memory.read_imageFrom (f : Nat → Byte) (lo n a : Nat) (h : lo + n ≤ Config.memSize) (hlo : lo ≤ a) (ha : a < lo + n) :
    Memory.read (Memory.imageFrom f lo n) a = f a := by
  induction n generalizing lo with
  | zero => omega
  | succ n ih =>
    rw [Memory.imageFrom_succ]
    rcases Nat.eq_or_lt_of_le hlo with rfl | hlt
    · split
      · rename_i hf
        exact (Memory.read_below (Memory.wfFrom_imageFrom f (lo + 1) n (by omega)) (Nat.lt_succ_self lo)).trans hf.symm
      · simp [Memory.read]
    · have hrec := ih (lo + 1) (by omega) hlt (by omega)
      split
      · exact hrec
      · simpa [Memory.read, Nat.ne_of_lt hlt] using hrec

/-- The memory of an image is in canonical form. -/
theorem Memory.wf_ofImage (f : Nat → Byte) : Memory.wf (Memory.ofImage f) = true := by
  rw [Memory.ofImage_eq]
  exact Memory.wfFrom_imageFrom f 0 Config.memSize (by simp)

/-- The memory of an image reads as the image at every address that exists. -/
theorem Memory.read_ofImage (f : Nat → Byte) (a : Nat) (h : a < Config.memSize) : Memory.read (Memory.ofImage f) a = f a := by
  rw [Memory.ofImage_eq]
  exact Memory.read_imageFrom f 0 Config.memSize a (by simp) (Nat.zero_le a) (by simpa using h)

end Sys2Proof.Machine
end

