-- ==== Sys2Proof/Laws/Construct.lean ====
section
/-! SUPPORT. What construction does, once: the load error, and every field of the constructed state. -/

namespace Sys2Proof.Machine

variable (font : Vector Byte 80) (policy : ResetPolicy) (rom : List Byte)

theorem construct_eq_none (h : Config.maxRom < rom.length) : construct font policy rom = none := by
  unfold construct
  rw [if_neg (Nat.not_le.mpr h)]

/-- A ROM of legal length is accepted; the fields of the state, and its memory byte by byte (spec/10_state.md R54, R57). -/
theorem construct_eq_some (h : rom.length ≤ Config.maxRom) :
    ∃ s, construct font policy rom = some s ∧ s.v = policy.values.v ∧ s.i = policy.values.i.setWidth 16 ∧
      s.pc = Config.pcReset ∧ s.sp = 0 ∧ s.stack = policy.values.stack ∧ s.dt = policy.values.dt ∧
      s.st = policy.values.st ∧ s.mode = .running ∧ s.waitx = policy.values.waitx ∧ s.kprev = policy.values.kprev ∧
      s.fb = policy.values.fb ∧ Memory.wf s.mem = true ∧
      ∀ a, a < Config.memSize → s.byte a = initialImage font policy.values.fill rom a := by
  unfold construct
  rw [if_pos h]
  have hw := Memory.wf_ofImage (initialImage font policy.values.fill rom)
  have hr := Memory.read_ofImage (initialImage font policy.values.fill rom)
  generalize Memory.ofImage (initialImage font policy.values.fill rom) = m at hw hr
  exact ⟨_, rfl, rfl, rfl, rfl, rfl, rfl, rfl, rfl, rfl, rfl, rfl, rfl, hw, hr⟩

/-- The memory of an image that agrees with the unlisted bytes lists nothing. -/
theorem Memory.ofImage_unlisted (f : Nat → Byte) (h : ∀ a, a < Config.memSize → f a = Memory.unlisted a) :
    Memory.ofImage f = [] := by
  unfold Memory.ofImage
  rw [List.filterMap_eq_nil_iff]
  intro a ha
  rw [if_pos (h a (List.mem_range.mp ha))]

end Sys2Proof.Machine
end

