-- ==== Sys2Proof/Laws/State.lean ====
section
/-! SUPPORT. The small lemmas of the state: one a field an update, true by unfolding it once, and the same for the accessors, so that no later
proof unfolds a record update. -/

namespace Sys2Proof.Machine

variable (s : State)

/-! ### `State.reportIf` -/

@[simp] theorem reportIf_v (b : Bool) (c : Cause) : (s.reportIf b c).v = s.v := rfl
@[simp] theorem reportIf_i (b : Bool) (c : Cause) : (s.reportIf b c).i = s.i := rfl
@[simp] theorem reportIf_pc (b : Bool) (c : Cause) : (s.reportIf b c).pc = s.pc := rfl
@[simp] theorem reportIf_sp (b : Bool) (c : Cause) : (s.reportIf b c).sp = s.sp := rfl
@[simp] theorem reportIf_stack (b : Bool) (c : Cause) : (s.reportIf b c).stack = s.stack := rfl
@[simp] theorem reportIf_dt (b : Bool) (c : Cause) : (s.reportIf b c).dt = s.dt := rfl
@[simp] theorem reportIf_st (b : Bool) (c : Cause) : (s.reportIf b c).st = s.st := rfl
@[simp] theorem reportIf_mode (b : Bool) (c : Cause) : (s.reportIf b c).mode = s.mode := rfl
@[simp] theorem reportIf_waitx (b : Bool) (c : Cause) : (s.reportIf b c).waitx = s.waitx := rfl
@[simp] theorem reportIf_kprev (b : Bool) (c : Cause) : (s.reportIf b c).kprev = s.kprev := rfl
@[simp] theorem reportIf_mem (b : Bool) (c : Cause) : (s.reportIf b c).mem = s.mem := rfl
@[simp] theorem reportIf_fb (b : Bool) (c : Cause) : (s.reportIf b c).fb = s.fb := rfl
@[simp] theorem reportIf_diag (b : Bool) (c : Cause) : (s.reportIf b c).diag = { s.diag with causes := s.diag.causes ||| (bif b then c.bit else 0#4) } := rfl
@[simp] theorem reportIf_sched (b : Bool) (c : Cause) : (s.reportIf b c).sched = s.sched := rfl
@[simp] theorem reportIf_stepNo (b : Bool) (c : Cause) : (s.reportIf b c).stepNo = s.stepNo := rfl
@[simp] theorem reportIf_getV (b : Bool) (c : Cause) (r : VReg) : (s.reportIf b c).getV r = s.getV r := rfl
@[simp] theorem reportIf_byte (b : Bool) (c : Cause) (a : Nat) : (s.reportIf b c).byte a = s.byte a := rfl
@[simp] theorem reportIf_slot (b : Bool) (c : Cause) (j : Fin 16) : (s.reportIf b c).slot j = s.slot j := rfl
@[simp] theorem reportIf_fbPort (b : Bool) (c : Cause) (py : Fin 32) (px : Fin 64) : (s.reportIf b c).fbPort py px = s.fbPort py px := rfl
@[simp] theorem reportIf_input (b : Bool) (c : Cause) : (s.reportIf b c).input = s.input := rfl
@[simp] theorem reportIf_keyDown (b : Bool) (c : Cause) (k : Key) : (s.reportIf b c).keyDown k = s.keyDown k := rfl
@[simp] theorem reportIf_dataAddr (b : Bool) (c : Cause) (k : Nat) : (s.reportIf b c).dataAddr k = s.dataAddr k := rfl

/-! ### `State.setV` -/

@[simp] theorem setV_v (x : VReg) (b : Byte) : (s.setV x b).v = s.v.set x.val b x.isLt := rfl
@[simp] theorem setV_i (x : VReg) (b : Byte) : (s.setV x b).i = s.i := rfl
@[simp] theorem setV_pc (x : VReg) (b : Byte) : (s.setV x b).pc = s.pc := rfl
@[simp] theorem setV_sp (x : VReg) (b : Byte) : (s.setV x b).sp = s.sp := rfl
@[simp] theorem setV_stack (x : VReg) (b : Byte) : (s.setV x b).stack = s.stack := rfl
@[simp] theorem setV_dt (x : VReg) (b : Byte) : (s.setV x b).dt = s.dt := rfl
@[simp] theorem setV_st (x : VReg) (b : Byte) : (s.setV x b).st = s.st := rfl
@[simp] theorem setV_mode (x : VReg) (b : Byte) : (s.setV x b).mode = s.mode := rfl
@[simp] theorem setV_waitx (x : VReg) (b : Byte) : (s.setV x b).waitx = s.waitx := rfl
@[simp] theorem setV_kprev (x : VReg) (b : Byte) : (s.setV x b).kprev = s.kprev := rfl
@[simp] theorem setV_mem (x : VReg) (b : Byte) : (s.setV x b).mem = s.mem := rfl
@[simp] theorem setV_fb (x : VReg) (b : Byte) : (s.setV x b).fb = s.fb := rfl
@[simp] theorem setV_diag (x : VReg) (b : Byte) : (s.setV x b).diag = s.diag := rfl
@[simp] theorem setV_sched (x : VReg) (b : Byte) : (s.setV x b).sched = s.sched := rfl
@[simp] theorem setV_stepNo (x : VReg) (b : Byte) : (s.setV x b).stepNo = s.stepNo := rfl
@[simp] theorem setV_byte (x : VReg) (b : Byte) (a : Nat) : (s.setV x b).byte a = s.byte a := rfl
@[simp] theorem setV_slot (x : VReg) (b : Byte) (j : Fin 16) : (s.setV x b).slot j = s.slot j := rfl
@[simp] theorem setV_fbPort (x : VReg) (b : Byte) (py : Fin 32) (px : Fin 64) : (s.setV x b).fbPort py px = s.fbPort py px := rfl
@[simp] theorem setV_input (x : VReg) (b : Byte) : (s.setV x b).input = s.input := rfl
@[simp] theorem setV_keyDown (x : VReg) (b : Byte) (k : Key) : (s.setV x b).keyDown k = s.keyDown k := rfl
@[simp] theorem setV_dataAddr (x : VReg) (b : Byte) (k : Nat) : (s.setV x b).dataAddr k = s.dataAddr k := rfl

/-! ### `State.setI` -/

@[simp] theorem setI_v (w : Word) : (s.setI w).v = s.v := rfl
@[simp] theorem setI_i (w : Word) : (s.setI w).i = w := rfl
@[simp] theorem setI_pc (w : Word) : (s.setI w).pc = s.pc := rfl
@[simp] theorem setI_sp (w : Word) : (s.setI w).sp = s.sp := rfl
@[simp] theorem setI_stack (w : Word) : (s.setI w).stack = s.stack := rfl
@[simp] theorem setI_dt (w : Word) : (s.setI w).dt = s.dt := rfl
@[simp] theorem setI_st (w : Word) : (s.setI w).st = s.st := rfl
@[simp] theorem setI_mode (w : Word) : (s.setI w).mode = s.mode := rfl
@[simp] theorem setI_waitx (w : Word) : (s.setI w).waitx = s.waitx := rfl
@[simp] theorem setI_kprev (w : Word) : (s.setI w).kprev = s.kprev := rfl
@[simp] theorem setI_mem (w : Word) : (s.setI w).mem = s.mem := rfl
@[simp] theorem setI_fb (w : Word) : (s.setI w).fb = s.fb := rfl
@[simp] theorem setI_diag (w : Word) : (s.setI w).diag = s.diag := rfl
@[simp] theorem setI_sched (w : Word) : (s.setI w).sched = s.sched := rfl
@[simp] theorem setI_stepNo (w : Word) : (s.setI w).stepNo = s.stepNo := rfl
@[simp] theorem setI_getV (w : Word) (r : VReg) : (s.setI w).getV r = s.getV r := rfl
@[simp] theorem setI_byte (w : Word) (a : Nat) : (s.setI w).byte a = s.byte a := rfl
@[simp] theorem setI_slot (w : Word) (j : Fin 16) : (s.setI w).slot j = s.slot j := rfl
@[simp] theorem setI_fbPort (w : Word) (py : Fin 32) (px : Fin 64) : (s.setI w).fbPort py px = s.fbPort py px := rfl
@[simp] theorem setI_input (w : Word) : (s.setI w).input = s.input := rfl
@[simp] theorem setI_keyDown (w : Word) (k : Key) : (s.setI w).keyDown k = s.keyDown k := rfl

/-! ### `State.setPc` -/

@[simp] theorem setPc_v (w : Word) : (s.setPc w).v = s.v := rfl
@[simp] theorem setPc_i (w : Word) : (s.setPc w).i = s.i := rfl
@[simp] theorem setPc_pc (w : Word) : (s.setPc w).pc = w := rfl
@[simp] theorem setPc_sp (w : Word) : (s.setPc w).sp = s.sp := rfl
@[simp] theorem setPc_stack (w : Word) : (s.setPc w).stack = s.stack := rfl
@[simp] theorem setPc_dt (w : Word) : (s.setPc w).dt = s.dt := rfl
@[simp] theorem setPc_st (w : Word) : (s.setPc w).st = s.st := rfl
@[simp] theorem setPc_mode (w : Word) : (s.setPc w).mode = s.mode := rfl
@[simp] theorem setPc_waitx (w : Word) : (s.setPc w).waitx = s.waitx := rfl
@[simp] theorem setPc_kprev (w : Word) : (s.setPc w).kprev = s.kprev := rfl
@[simp] theorem setPc_mem (w : Word) : (s.setPc w).mem = s.mem := rfl
@[simp] theorem setPc_fb (w : Word) : (s.setPc w).fb = s.fb := rfl
@[simp] theorem setPc_diag (w : Word) : (s.setPc w).diag = s.diag := rfl
@[simp] theorem setPc_sched (w : Word) : (s.setPc w).sched = s.sched := rfl
@[simp] theorem setPc_stepNo (w : Word) : (s.setPc w).stepNo = s.stepNo := rfl
@[simp] theorem setPc_getV (w : Word) (r : VReg) : (s.setPc w).getV r = s.getV r := rfl
@[simp] theorem setPc_byte (w : Word) (a : Nat) : (s.setPc w).byte a = s.byte a := rfl
@[simp] theorem setPc_slot (w : Word) (j : Fin 16) : (s.setPc w).slot j = s.slot j := rfl
@[simp] theorem setPc_fbPort (w : Word) (py : Fin 32) (px : Fin 64) : (s.setPc w).fbPort py px = s.fbPort py px := rfl
@[simp] theorem setPc_input (w : Word) : (s.setPc w).input = s.input := rfl
@[simp] theorem setPc_keyDown (w : Word) (k : Key) : (s.setPc w).keyDown k = s.keyDown k := rfl
@[simp] theorem setPc_dataAddr (w : Word) (k : Nat) : (s.setPc w).dataAddr k = s.dataAddr k := rfl

/-! ### `State.setDt` -/

@[simp] theorem setDt_v (b : Byte) : (s.setDt b).v = s.v := rfl
@[simp] theorem setDt_i (b : Byte) : (s.setDt b).i = s.i := rfl
@[simp] theorem setDt_pc (b : Byte) : (s.setDt b).pc = s.pc := rfl
@[simp] theorem setDt_sp (b : Byte) : (s.setDt b).sp = s.sp := rfl
@[simp] theorem setDt_stack (b : Byte) : (s.setDt b).stack = s.stack := rfl
@[simp] theorem setDt_dt (b : Byte) : (s.setDt b).dt = b := rfl
@[simp] theorem setDt_st (b : Byte) : (s.setDt b).st = s.st := rfl
@[simp] theorem setDt_mode (b : Byte) : (s.setDt b).mode = s.mode := rfl
@[simp] theorem setDt_waitx (b : Byte) : (s.setDt b).waitx = s.waitx := rfl
@[simp] theorem setDt_kprev (b : Byte) : (s.setDt b).kprev = s.kprev := rfl
@[simp] theorem setDt_mem (b : Byte) : (s.setDt b).mem = s.mem := rfl
@[simp] theorem setDt_fb (b : Byte) : (s.setDt b).fb = s.fb := rfl
@[simp] theorem setDt_diag (b : Byte) : (s.setDt b).diag = s.diag := rfl
@[simp] theorem setDt_sched (b : Byte) : (s.setDt b).sched = s.sched := rfl
@[simp] theorem setDt_stepNo (b : Byte) : (s.setDt b).stepNo = s.stepNo := rfl
@[simp] theorem setDt_getV (b : Byte) (r : VReg) : (s.setDt b).getV r = s.getV r := rfl
@[simp] theorem setDt_byte (b : Byte) (a : Nat) : (s.setDt b).byte a = s.byte a := rfl
@[simp] theorem setDt_slot (b : Byte) (j : Fin 16) : (s.setDt b).slot j = s.slot j := rfl
@[simp] theorem setDt_fbPort (b : Byte) (py : Fin 32) (px : Fin 64) : (s.setDt b).fbPort py px = s.fbPort py px := rfl
@[simp] theorem setDt_input (b : Byte) : (s.setDt b).input = s.input := rfl
@[simp] theorem setDt_keyDown (b : Byte) (k : Key) : (s.setDt b).keyDown k = s.keyDown k := rfl
@[simp] theorem setDt_dataAddr (b : Byte) (k : Nat) : (s.setDt b).dataAddr k = s.dataAddr k := rfl

/-! ### `State.setSt` -/

@[simp] theorem setSt_v (b : Byte) : (s.setSt b).v = s.v := rfl
@[simp] theorem setSt_i (b : Byte) : (s.setSt b).i = s.i := rfl
@[simp] theorem setSt_pc (b : Byte) : (s.setSt b).pc = s.pc := rfl
@[simp] theorem setSt_sp (b : Byte) : (s.setSt b).sp = s.sp := rfl
@[simp] theorem setSt_stack (b : Byte) : (s.setSt b).stack = s.stack := rfl
@[simp] theorem setSt_dt (b : Byte) : (s.setSt b).dt = s.dt := rfl
@[simp] theorem setSt_st (b : Byte) : (s.setSt b).st = b := rfl
@[simp] theorem setSt_mode (b : Byte) : (s.setSt b).mode = s.mode := rfl
@[simp] theorem setSt_waitx (b : Byte) : (s.setSt b).waitx = s.waitx := rfl
@[simp] theorem setSt_kprev (b : Byte) : (s.setSt b).kprev = s.kprev := rfl
@[simp] theorem setSt_mem (b : Byte) : (s.setSt b).mem = s.mem := rfl
@[simp] theorem setSt_fb (b : Byte) : (s.setSt b).fb = s.fb := rfl
@[simp] theorem setSt_diag (b : Byte) : (s.setSt b).diag = s.diag := rfl
@[simp] theorem setSt_sched (b : Byte) : (s.setSt b).sched = s.sched := rfl
@[simp] theorem setSt_stepNo (b : Byte) : (s.setSt b).stepNo = s.stepNo := rfl
@[simp] theorem setSt_getV (b : Byte) (r : VReg) : (s.setSt b).getV r = s.getV r := rfl
@[simp] theorem setSt_byte (b : Byte) (a : Nat) : (s.setSt b).byte a = s.byte a := rfl
@[simp] theorem setSt_slot (b : Byte) (j : Fin 16) : (s.setSt b).slot j = s.slot j := rfl
@[simp] theorem setSt_fbPort (b : Byte) (py : Fin 32) (px : Fin 64) : (s.setSt b).fbPort py px = s.fbPort py px := rfl
@[simp] theorem setSt_input (b : Byte) : (s.setSt b).input = s.input := rfl
@[simp] theorem setSt_keyDown (b : Byte) (k : Key) : (s.setSt b).keyDown k = s.keyDown k := rfl
@[simp] theorem setSt_dataAddr (b : Byte) (k : Nat) : (s.setSt b).dataAddr k = s.dataAddr k := rfl

/-! ### `State.setMode` -/

@[simp] theorem setMode_v (m : Mode) : (s.setMode m).v = s.v := rfl
@[simp] theorem setMode_i (m : Mode) : (s.setMode m).i = s.i := rfl
@[simp] theorem setMode_pc (m : Mode) : (s.setMode m).pc = s.pc := rfl
@[simp] theorem setMode_sp (m : Mode) : (s.setMode m).sp = s.sp := rfl
@[simp] theorem setMode_stack (m : Mode) : (s.setMode m).stack = s.stack := rfl
@[simp] theorem setMode_dt (m : Mode) : (s.setMode m).dt = s.dt := rfl
@[simp] theorem setMode_st (m : Mode) : (s.setMode m).st = s.st := rfl
@[simp] theorem setMode_mode (m : Mode) : (s.setMode m).mode = m := rfl
@[simp] theorem setMode_waitx (m : Mode) : (s.setMode m).waitx = s.waitx := rfl
@[simp] theorem setMode_kprev (m : Mode) : (s.setMode m).kprev = s.kprev := rfl
@[simp] theorem setMode_mem (m : Mode) : (s.setMode m).mem = s.mem := rfl
@[simp] theorem setMode_fb (m : Mode) : (s.setMode m).fb = s.fb := rfl
@[simp] theorem setMode_diag (m : Mode) : (s.setMode m).diag = s.diag := rfl
@[simp] theorem setMode_sched (m : Mode) : (s.setMode m).sched = s.sched := rfl
@[simp] theorem setMode_stepNo (m : Mode) : (s.setMode m).stepNo = s.stepNo := rfl
@[simp] theorem setMode_getV (m : Mode) (r : VReg) : (s.setMode m).getV r = s.getV r := rfl
@[simp] theorem setMode_byte (m : Mode) (a : Nat) : (s.setMode m).byte a = s.byte a := rfl
@[simp] theorem setMode_slot (m : Mode) (j : Fin 16) : (s.setMode m).slot j = s.slot j := rfl
@[simp] theorem setMode_fbPort (m : Mode) (py : Fin 32) (px : Fin 64) : (s.setMode m).fbPort py px = s.fbPort py px := rfl
@[simp] theorem setMode_input (m : Mode) : (s.setMode m).input = s.input := rfl
@[simp] theorem setMode_keyDown (m : Mode) (k : Key) : (s.setMode m).keyDown k = s.keyDown k := rfl
@[simp] theorem setMode_dataAddr (m : Mode) (k : Nat) : (s.setMode m).dataAddr k = s.dataAddr k := rfl

/-! ### `State.setWaitx` -/

@[simp] theorem setWaitx_v (x : VReg) : (s.setWaitx x).v = s.v := rfl
@[simp] theorem setWaitx_i (x : VReg) : (s.setWaitx x).i = s.i := rfl
@[simp] theorem setWaitx_pc (x : VReg) : (s.setWaitx x).pc = s.pc := rfl
@[simp] theorem setWaitx_sp (x : VReg) : (s.setWaitx x).sp = s.sp := rfl
@[simp] theorem setWaitx_stack (x : VReg) : (s.setWaitx x).stack = s.stack := rfl
@[simp] theorem setWaitx_dt (x : VReg) : (s.setWaitx x).dt = s.dt := rfl
@[simp] theorem setWaitx_st (x : VReg) : (s.setWaitx x).st = s.st := rfl
@[simp] theorem setWaitx_mode (x : VReg) : (s.setWaitx x).mode = s.mode := rfl
@[simp] theorem setWaitx_waitx (x : VReg) : (s.setWaitx x).waitx = x := rfl
@[simp] theorem setWaitx_kprev (x : VReg) : (s.setWaitx x).kprev = s.kprev := rfl
@[simp] theorem setWaitx_mem (x : VReg) : (s.setWaitx x).mem = s.mem := rfl
@[simp] theorem setWaitx_fb (x : VReg) : (s.setWaitx x).fb = s.fb := rfl
@[simp] theorem setWaitx_diag (x : VReg) : (s.setWaitx x).diag = s.diag := rfl
@[simp] theorem setWaitx_sched (x : VReg) : (s.setWaitx x).sched = s.sched := rfl
@[simp] theorem setWaitx_stepNo (x : VReg) : (s.setWaitx x).stepNo = s.stepNo := rfl
@[simp] theorem setWaitx_getV (x : VReg) (r : VReg) : (s.setWaitx x).getV r = s.getV r := rfl
@[simp] theorem setWaitx_byte (x : VReg) (a : Nat) : (s.setWaitx x).byte a = s.byte a := rfl
@[simp] theorem setWaitx_slot (x : VReg) (j : Fin 16) : (s.setWaitx x).slot j = s.slot j := rfl
@[simp] theorem setWaitx_fbPort (x : VReg) (py : Fin 32) (px : Fin 64) : (s.setWaitx x).fbPort py px = s.fbPort py px := rfl
@[simp] theorem setWaitx_input (x : VReg) : (s.setWaitx x).input = s.input := rfl
@[simp] theorem setWaitx_keyDown (x : VReg) (k : Key) : (s.setWaitx x).keyDown k = s.keyDown k := rfl
@[simp] theorem setWaitx_dataAddr (x : VReg) (k : Nat) : (s.setWaitx x).dataAddr k = s.dataAddr k := rfl

/-! ### `State.setKprev` -/

@[simp] theorem setKprev_v (w : Word) : (s.setKprev w).v = s.v := rfl
@[simp] theorem setKprev_i (w : Word) : (s.setKprev w).i = s.i := rfl
@[simp] theorem setKprev_pc (w : Word) : (s.setKprev w).pc = s.pc := rfl
@[simp] theorem setKprev_sp (w : Word) : (s.setKprev w).sp = s.sp := rfl
@[simp] theorem setKprev_stack (w : Word) : (s.setKprev w).stack = s.stack := rfl
@[simp] theorem setKprev_dt (w : Word) : (s.setKprev w).dt = s.dt := rfl
@[simp] theorem setKprev_st (w : Word) : (s.setKprev w).st = s.st := rfl
@[simp] theorem setKprev_mode (w : Word) : (s.setKprev w).mode = s.mode := rfl
@[simp] theorem setKprev_waitx (w : Word) : (s.setKprev w).waitx = s.waitx := rfl
@[simp] theorem setKprev_kprev (w : Word) : (s.setKprev w).kprev = w := rfl
@[simp] theorem setKprev_mem (w : Word) : (s.setKprev w).mem = s.mem := rfl
@[simp] theorem setKprev_fb (w : Word) : (s.setKprev w).fb = s.fb := rfl
@[simp] theorem setKprev_diag (w : Word) : (s.setKprev w).diag = s.diag := rfl
@[simp] theorem setKprev_sched (w : Word) : (s.setKprev w).sched = s.sched := rfl
@[simp] theorem setKprev_stepNo (w : Word) : (s.setKprev w).stepNo = s.stepNo := rfl
@[simp] theorem setKprev_getV (w : Word) (r : VReg) : (s.setKprev w).getV r = s.getV r := rfl
@[simp] theorem setKprev_byte (w : Word) (a : Nat) : (s.setKprev w).byte a = s.byte a := rfl
@[simp] theorem setKprev_slot (w : Word) (j : Fin 16) : (s.setKprev w).slot j = s.slot j := rfl
@[simp] theorem setKprev_fbPort (w : Word) (py : Fin 32) (px : Fin 64) : (s.setKprev w).fbPort py px = s.fbPort py px := rfl
@[simp] theorem setKprev_input (w : Word) : (s.setKprev w).input = s.input := rfl
@[simp] theorem setKprev_keyDown (w : Word) (k : Key) : (s.setKprev w).keyDown k = s.keyDown k := rfl
@[simp] theorem setKprev_dataAddr (w : Word) (k : Nat) : (s.setKprev w).dataAddr k = s.dataAddr k := rfl

/-! ### `State.setFb` -/

@[simp] theorem setFb_v (fb : Framebuffer) : (s.setFb fb).v = s.v := rfl
@[simp] theorem setFb_i (fb : Framebuffer) : (s.setFb fb).i = s.i := rfl
@[simp] theorem setFb_pc (fb : Framebuffer) : (s.setFb fb).pc = s.pc := rfl
@[simp] theorem setFb_sp (fb : Framebuffer) : (s.setFb fb).sp = s.sp := rfl
@[simp] theorem setFb_stack (fb : Framebuffer) : (s.setFb fb).stack = s.stack := rfl
@[simp] theorem setFb_dt (fb : Framebuffer) : (s.setFb fb).dt = s.dt := rfl
@[simp] theorem setFb_st (fb : Framebuffer) : (s.setFb fb).st = s.st := rfl
@[simp] theorem setFb_mode (fb : Framebuffer) : (s.setFb fb).mode = s.mode := rfl
@[simp] theorem setFb_waitx (fb : Framebuffer) : (s.setFb fb).waitx = s.waitx := rfl
@[simp] theorem setFb_kprev (fb : Framebuffer) : (s.setFb fb).kprev = s.kprev := rfl
@[simp] theorem setFb_mem (fb : Framebuffer) : (s.setFb fb).mem = s.mem := rfl
@[simp] theorem setFb_fb (fb : Framebuffer) : (s.setFb fb).fb = fb := rfl
@[simp] theorem setFb_diag (fb : Framebuffer) : (s.setFb fb).diag = s.diag := rfl
@[simp] theorem setFb_sched (fb : Framebuffer) : (s.setFb fb).sched = s.sched := rfl
@[simp] theorem setFb_stepNo (fb : Framebuffer) : (s.setFb fb).stepNo = s.stepNo := rfl
@[simp] theorem setFb_getV (fb : Framebuffer) (r : VReg) : (s.setFb fb).getV r = s.getV r := rfl
@[simp] theorem setFb_byte (fb : Framebuffer) (a : Nat) : (s.setFb fb).byte a = s.byte a := rfl
@[simp] theorem setFb_slot (fb : Framebuffer) (j : Fin 16) : (s.setFb fb).slot j = s.slot j := rfl
@[simp] theorem setFb_input (fb : Framebuffer) : (s.setFb fb).input = s.input := rfl
@[simp] theorem setFb_keyDown (fb : Framebuffer) (k : Key) : (s.setFb fb).keyDown k = s.keyDown k := rfl
@[simp] theorem setFb_dataAddr (fb : Framebuffer) (k : Nat) : (s.setFb fb).dataAddr k = s.dataAddr k := rfl

/-! ### `State.setMem` -/

@[simp] theorem setMem_v (m : List Host.Cell) : (s.setMem m).v = s.v := rfl
@[simp] theorem setMem_i (m : List Host.Cell) : (s.setMem m).i = s.i := rfl
@[simp] theorem setMem_pc (m : List Host.Cell) : (s.setMem m).pc = s.pc := rfl
@[simp] theorem setMem_sp (m : List Host.Cell) : (s.setMem m).sp = s.sp := rfl
@[simp] theorem setMem_stack (m : List Host.Cell) : (s.setMem m).stack = s.stack := rfl
@[simp] theorem setMem_dt (m : List Host.Cell) : (s.setMem m).dt = s.dt := rfl
@[simp] theorem setMem_st (m : List Host.Cell) : (s.setMem m).st = s.st := rfl
@[simp] theorem setMem_mode (m : List Host.Cell) : (s.setMem m).mode = s.mode := rfl
@[simp] theorem setMem_waitx (m : List Host.Cell) : (s.setMem m).waitx = s.waitx := rfl
@[simp] theorem setMem_kprev (m : List Host.Cell) : (s.setMem m).kprev = s.kprev := rfl
@[simp] theorem setMem_mem (m : List Host.Cell) : (s.setMem m).mem = m := rfl
@[simp] theorem setMem_fb (m : List Host.Cell) : (s.setMem m).fb = s.fb := rfl
@[simp] theorem setMem_diag (m : List Host.Cell) : (s.setMem m).diag = s.diag := rfl
@[simp] theorem setMem_sched (m : List Host.Cell) : (s.setMem m).sched = s.sched := rfl
@[simp] theorem setMem_stepNo (m : List Host.Cell) : (s.setMem m).stepNo = s.stepNo := rfl
@[simp] theorem setMem_getV (m : List Host.Cell) (r : VReg) : (s.setMem m).getV r = s.getV r := rfl
@[simp] theorem setMem_slot (m : List Host.Cell) (j : Fin 16) : (s.setMem m).slot j = s.slot j := rfl
@[simp] theorem setMem_fbPort (m : List Host.Cell) (py : Fin 32) (px : Fin 64) : (s.setMem m).fbPort py px = s.fbPort py px := rfl
@[simp] theorem setMem_input (m : List Host.Cell) : (s.setMem m).input = s.input := rfl
@[simp] theorem setMem_keyDown (m : List Host.Cell) (k : Key) : (s.setMem m).keyDown k = s.keyDown k := rfl
@[simp] theorem setMem_dataAddr (m : List Host.Cell) (k : Nat) : (s.setMem m).dataAddr k = s.dataAddr k := rfl

/-! ### `State.setDiag` -/

@[simp] theorem setDiag_v (d : Diag) : (s.setDiag d).v = s.v := rfl
@[simp] theorem setDiag_i (d : Diag) : (s.setDiag d).i = s.i := rfl
@[simp] theorem setDiag_pc (d : Diag) : (s.setDiag d).pc = s.pc := rfl
@[simp] theorem setDiag_sp (d : Diag) : (s.setDiag d).sp = s.sp := rfl
@[simp] theorem setDiag_stack (d : Diag) : (s.setDiag d).stack = s.stack := rfl
@[simp] theorem setDiag_dt (d : Diag) : (s.setDiag d).dt = s.dt := rfl
@[simp] theorem setDiag_st (d : Diag) : (s.setDiag d).st = s.st := rfl
@[simp] theorem setDiag_mode (d : Diag) : (s.setDiag d).mode = s.mode := rfl
@[simp] theorem setDiag_waitx (d : Diag) : (s.setDiag d).waitx = s.waitx := rfl
@[simp] theorem setDiag_kprev (d : Diag) : (s.setDiag d).kprev = s.kprev := rfl
@[simp] theorem setDiag_mem (d : Diag) : (s.setDiag d).mem = s.mem := rfl
@[simp] theorem setDiag_fb (d : Diag) : (s.setDiag d).fb = s.fb := rfl
@[simp] theorem setDiag_diag (d : Diag) : (s.setDiag d).diag = d := rfl
@[simp] theorem setDiag_sched (d : Diag) : (s.setDiag d).sched = s.sched := rfl
@[simp] theorem setDiag_stepNo (d : Diag) : (s.setDiag d).stepNo = s.stepNo := rfl
@[simp] theorem setDiag_getV (d : Diag) (r : VReg) : (s.setDiag d).getV r = s.getV r := rfl
@[simp] theorem setDiag_byte (d : Diag) (a : Nat) : (s.setDiag d).byte a = s.byte a := rfl
@[simp] theorem setDiag_slot (d : Diag) (j : Fin 16) : (s.setDiag d).slot j = s.slot j := rfl
@[simp] theorem setDiag_fbPort (d : Diag) (py : Fin 32) (px : Fin 64) : (s.setDiag d).fbPort py px = s.fbPort py px := rfl
@[simp] theorem setDiag_input (d : Diag) : (s.setDiag d).input = s.input := rfl
@[simp] theorem setDiag_keyDown (d : Diag) (k : Key) : (s.setDiag d).keyDown k = s.keyDown k := rfl
@[simp] theorem setDiag_dataAddr (d : Diag) (k : Nat) : (s.setDiag d).dataAddr k = s.dataAddr k := rfl

/-! ### `State.nextInput` -/

@[simp] theorem nextInput_v : (s.nextInput).v = s.v := rfl
@[simp] theorem nextInput_i : (s.nextInput).i = s.i := rfl
@[simp] theorem nextInput_pc : (s.nextInput).pc = s.pc := rfl
@[simp] theorem nextInput_sp : (s.nextInput).sp = s.sp := rfl
@[simp] theorem nextInput_stack : (s.nextInput).stack = s.stack := rfl
@[simp] theorem nextInput_dt : (s.nextInput).dt = s.dt := rfl
@[simp] theorem nextInput_st : (s.nextInput).st = s.st := rfl
@[simp] theorem nextInput_mode : (s.nextInput).mode = s.mode := rfl
@[simp] theorem nextInput_waitx : (s.nextInput).waitx = s.waitx := rfl
@[simp] theorem nextInput_kprev : (s.nextInput).kprev = s.kprev := rfl
@[simp] theorem nextInput_mem : (s.nextInput).mem = s.mem := rfl
@[simp] theorem nextInput_fb : (s.nextInput).fb = s.fb := rfl
@[simp] theorem nextInput_diag : (s.nextInput).diag = s.diag := rfl
@[simp] theorem nextInput_sched : (s.nextInput).sched = s.sched.tail := rfl
@[simp] theorem nextInput_stepNo : (s.nextInput).stepNo = s.stepNo + 1 := rfl
@[simp] theorem nextInput_getV (r : VReg) : (s.nextInput).getV r = s.getV r := rfl
@[simp] theorem nextInput_byte (a : Nat) : (s.nextInput).byte a = s.byte a := rfl
@[simp] theorem nextInput_slot (j : Fin 16) : (s.nextInput).slot j = s.slot j := rfl
@[simp] theorem nextInput_fbPort (py : Fin 32) (px : Fin 64) : (s.nextInput).fbPort py px = s.fbPort py px := rfl
@[simp] theorem nextInput_dataAddr (k : Nat) : (s.nextInput).dataAddr k = s.dataAddr k := rfl

/-! ### `State.reportBound` -/

@[simp] theorem reportBound_v (a : Nat) : (s.reportBound a).v = s.v := rfl
@[simp] theorem reportBound_i (a : Nat) : (s.reportBound a).i = s.i := rfl
@[simp] theorem reportBound_pc (a : Nat) : (s.reportBound a).pc = s.pc := rfl
@[simp] theorem reportBound_sp (a : Nat) : (s.reportBound a).sp = s.sp := rfl
@[simp] theorem reportBound_stack (a : Nat) : (s.reportBound a).stack = s.stack := rfl
@[simp] theorem reportBound_dt (a : Nat) : (s.reportBound a).dt = s.dt := rfl
@[simp] theorem reportBound_st (a : Nat) : (s.reportBound a).st = s.st := rfl
@[simp] theorem reportBound_mode (a : Nat) : (s.reportBound a).mode = s.mode := rfl
@[simp] theorem reportBound_waitx (a : Nat) : (s.reportBound a).waitx = s.waitx := rfl
@[simp] theorem reportBound_kprev (a : Nat) : (s.reportBound a).kprev = s.kprev := rfl
@[simp] theorem reportBound_mem (a : Nat) : (s.reportBound a).mem = s.mem := rfl
@[simp] theorem reportBound_fb (a : Nat) : (s.reportBound a).fb = s.fb := rfl
@[simp] theorem reportBound_sched (a : Nat) : (s.reportBound a).sched = s.sched := rfl
@[simp] theorem reportBound_stepNo (a : Nat) : (s.reportBound a).stepNo = s.stepNo := rfl
@[simp] theorem reportBound_getV (a : Nat) (r : VReg) : (s.reportBound a).getV r = s.getV r := rfl
@[simp] theorem reportBound_byte (a : Nat) (c : Nat) : (s.reportBound a).byte c = s.byte c := rfl
@[simp] theorem reportBound_slot (a : Nat) (j : Fin 16) : (s.reportBound a).slot j = s.slot j := rfl
@[simp] theorem reportBound_fbPort (a : Nat) (py : Fin 32) (px : Fin 64) : (s.reportBound a).fbPort py px = s.fbPort py px := rfl
@[simp] theorem reportBound_input (a : Nat) : (s.reportBound a).input = s.input := rfl
@[simp] theorem reportBound_keyDown (a : Nat) (k : Key) : (s.reportBound a).keyDown k = s.keyDown k := rfl
@[simp] theorem reportBound_dataAddr (a : Nat) (k : Nat) : (s.reportBound a).dataAddr k = s.dataAddr k := rfl

/-! ### `State.setPcWrapped` -/

@[simp] theorem setPcWrapped_v (a : Nat) : (s.setPcWrapped a).v = s.v := rfl
@[simp] theorem setPcWrapped_i (a : Nat) : (s.setPcWrapped a).i = s.i := rfl
@[simp] theorem setPcWrapped_pc (a : Nat) : (s.setPcWrapped a).pc = BitVec.ofNat 16 (wrapA a) := rfl
@[simp] theorem setPcWrapped_sp (a : Nat) : (s.setPcWrapped a).sp = s.sp := rfl
@[simp] theorem setPcWrapped_stack (a : Nat) : (s.setPcWrapped a).stack = s.stack := rfl
@[simp] theorem setPcWrapped_dt (a : Nat) : (s.setPcWrapped a).dt = s.dt := rfl
@[simp] theorem setPcWrapped_st (a : Nat) : (s.setPcWrapped a).st = s.st := rfl
@[simp] theorem setPcWrapped_mode (a : Nat) : (s.setPcWrapped a).mode = s.mode := rfl
@[simp] theorem setPcWrapped_waitx (a : Nat) : (s.setPcWrapped a).waitx = s.waitx := rfl
@[simp] theorem setPcWrapped_kprev (a : Nat) : (s.setPcWrapped a).kprev = s.kprev := rfl
@[simp] theorem setPcWrapped_mem (a : Nat) : (s.setPcWrapped a).mem = s.mem := rfl
@[simp] theorem setPcWrapped_fb (a : Nat) : (s.setPcWrapped a).fb = s.fb := rfl
@[simp] theorem setPcWrapped_diag (a : Nat) : (s.setPcWrapped a).diag = (s.reportBound a).diag := rfl
@[simp] theorem setPcWrapped_sched (a : Nat) : (s.setPcWrapped a).sched = s.sched := rfl
@[simp] theorem setPcWrapped_stepNo (a : Nat) : (s.setPcWrapped a).stepNo = s.stepNo := rfl
@[simp] theorem setPcWrapped_getV (a : Nat) (r : VReg) : (s.setPcWrapped a).getV r = s.getV r := rfl
@[simp] theorem setPcWrapped_byte (a : Nat) (c : Nat) : (s.setPcWrapped a).byte c = s.byte c := rfl
@[simp] theorem setPcWrapped_slot (a : Nat) (j : Fin 16) : (s.setPcWrapped a).slot j = s.slot j := rfl
@[simp] theorem setPcWrapped_fbPort (a : Nat) (py : Fin 32) (px : Fin 64) : (s.setPcWrapped a).fbPort py px = s.fbPort py px := rfl
@[simp] theorem setPcWrapped_input (a : Nat) : (s.setPcWrapped a).input = s.input := rfl
@[simp] theorem setPcWrapped_keyDown (a : Nat) (k : Key) : (s.setPcWrapped a).keyDown k = s.keyDown k := rfl
@[simp] theorem setPcWrapped_dataAddr (a : Nat) (k : Nat) : (s.setPcWrapped a).dataAddr k = s.dataAddr k := rfl

/-! ### `State.setIWrapped` -/

@[simp] theorem setIWrapped_v (a : Nat) : (s.setIWrapped a).v = s.v := rfl
@[simp] theorem setIWrapped_i (a : Nat) : (s.setIWrapped a).i = BitVec.ofNat 16 (wrapA a) := rfl
@[simp] theorem setIWrapped_pc (a : Nat) : (s.setIWrapped a).pc = s.pc := rfl
@[simp] theorem setIWrapped_sp (a : Nat) : (s.setIWrapped a).sp = s.sp := rfl
@[simp] theorem setIWrapped_stack (a : Nat) : (s.setIWrapped a).stack = s.stack := rfl
@[simp] theorem setIWrapped_dt (a : Nat) : (s.setIWrapped a).dt = s.dt := rfl
@[simp] theorem setIWrapped_st (a : Nat) : (s.setIWrapped a).st = s.st := rfl
@[simp] theorem setIWrapped_mode (a : Nat) : (s.setIWrapped a).mode = s.mode := rfl
@[simp] theorem setIWrapped_waitx (a : Nat) : (s.setIWrapped a).waitx = s.waitx := rfl
@[simp] theorem setIWrapped_kprev (a : Nat) : (s.setIWrapped a).kprev = s.kprev := rfl
@[simp] theorem setIWrapped_mem (a : Nat) : (s.setIWrapped a).mem = s.mem := rfl
@[simp] theorem setIWrapped_fb (a : Nat) : (s.setIWrapped a).fb = s.fb := rfl
@[simp] theorem setIWrapped_diag (a : Nat) : (s.setIWrapped a).diag = (s.reportBound a).diag := rfl
@[simp] theorem setIWrapped_sched (a : Nat) : (s.setIWrapped a).sched = s.sched := rfl
@[simp] theorem setIWrapped_stepNo (a : Nat) : (s.setIWrapped a).stepNo = s.stepNo := rfl
@[simp] theorem setIWrapped_getV (a : Nat) (r : VReg) : (s.setIWrapped a).getV r = s.getV r := rfl
@[simp] theorem setIWrapped_byte (a : Nat) (c : Nat) : (s.setIWrapped a).byte c = s.byte c := rfl
@[simp] theorem setIWrapped_slot (a : Nat) (j : Fin 16) : (s.setIWrapped a).slot j = s.slot j := rfl
@[simp] theorem setIWrapped_fbPort (a : Nat) (py : Fin 32) (px : Fin 64) : (s.setIWrapped a).fbPort py px = s.fbPort py px := rfl
@[simp] theorem setIWrapped_input (a : Nat) : (s.setIWrapped a).input = s.input := rfl
@[simp] theorem setIWrapped_keyDown (a : Nat) (k : Key) : (s.setIWrapped a).keyDown k = s.keyDown k := rfl

/-! ### `State.memWrite` -/

@[simp] theorem memWrite_v (a : Nat) (b : Byte) : (s.memWrite a b).v = s.v := rfl
@[simp] theorem memWrite_i (a : Nat) (b : Byte) : (s.memWrite a b).i = s.i := rfl
@[simp] theorem memWrite_pc (a : Nat) (b : Byte) : (s.memWrite a b).pc = s.pc := rfl
@[simp] theorem memWrite_sp (a : Nat) (b : Byte) : (s.memWrite a b).sp = s.sp := rfl
@[simp] theorem memWrite_stack (a : Nat) (b : Byte) : (s.memWrite a b).stack = s.stack := rfl
@[simp] theorem memWrite_dt (a : Nat) (b : Byte) : (s.memWrite a b).dt = s.dt := rfl
@[simp] theorem memWrite_st (a : Nat) (b : Byte) : (s.memWrite a b).st = s.st := rfl
@[simp] theorem memWrite_mode (a : Nat) (b : Byte) : (s.memWrite a b).mode = s.mode := rfl
@[simp] theorem memWrite_waitx (a : Nat) (b : Byte) : (s.memWrite a b).waitx = s.waitx := rfl
@[simp] theorem memWrite_kprev (a : Nat) (b : Byte) : (s.memWrite a b).kprev = s.kprev := rfl
@[simp] theorem memWrite_mem (a : Nat) (b : Byte) : (s.memWrite a b).mem = Memory.write s.mem (wrapA a) b := rfl
@[simp] theorem memWrite_fb (a : Nat) (b : Byte) : (s.memWrite a b).fb = s.fb := rfl
@[simp] theorem memWrite_diag (a : Nat) (b : Byte) : (s.memWrite a b).diag = (s.reportBound a).diag := rfl
@[simp] theorem memWrite_sched (a : Nat) (b : Byte) : (s.memWrite a b).sched = s.sched := rfl
@[simp] theorem memWrite_stepNo (a : Nat) (b : Byte) : (s.memWrite a b).stepNo = s.stepNo := rfl
@[simp] theorem memWrite_getV (a : Nat) (b : Byte) (r : VReg) : (s.memWrite a b).getV r = s.getV r := rfl
@[simp] theorem memWrite_slot (a : Nat) (b : Byte) (j : Fin 16) : (s.memWrite a b).slot j = s.slot j := rfl
@[simp] theorem memWrite_fbPort (a : Nat) (b : Byte) (py : Fin 32) (px : Fin 64) : (s.memWrite a b).fbPort py px = s.fbPort py px := rfl
@[simp] theorem memWrite_input (a : Nat) (b : Byte) : (s.memWrite a b).input = s.input := rfl
@[simp] theorem memWrite_keyDown (a : Nat) (b : Byte) (k : Key) : (s.memWrite a b).keyDown k = s.keyDown k := rfl
@[simp] theorem memWrite_dataAddr (a : Nat) (b : Byte) (k : Nat) : (s.memWrite a b).dataAddr k = s.dataAddr k := rfl

/-! ### What the updated accessor reads -/

@[simp] theorem setV_getV_same (x : VReg) (b : Byte) : (s.setV x b).getV x = b := by
  simp [State.setV, State.getV]

@[simp] theorem setV_getV_of_ne (x r : VReg) (b : Byte) (h : r ≠ x) : (s.setV x b).getV r = s.getV r := by
  have h' : x.val ≠ r.val := fun e => h (Fin.ext e.symm)
  simp [State.setV, State.getV, h']

theorem setV_getV (x r : VReg) (b : Byte) : (s.setV x b).getV r = if r = x then b else s.getV r := by
  by_cases h : r = x
  · subst h; simp
  · simp [h]

@[simp] theorem setFb_fbPort (fb : Framebuffer) (py : Fin 32) (px : Fin 64) :
    (s.setFb fb).fbPort py px = Framebuffer.pixel fb py px := rfl

@[simp] theorem setMem_byte (m : List Host.Cell) (a : Nat) : (s.setMem m).byte a = Memory.read m a := rfl

end Sys2Proof.Machine
end

