-- ==== Sys2Proof/Laws/Frame.lean ====
section
/-! SUPPORT. What each shared operation leaves unchanged, and what it reports: one frame lemma an operation, and the rules that put frames
together along a sequence of operations. -/

namespace Sys2Proof.Machine

/-! ### Putting frames together -/

theorem OnlyChanges.refl (P : Part → Prop) (s : State) : OnlyChanges P s s := by
  intro p _
  cases p <;> rfl

theorem Part.Same.trans {p : Part} {s t u : State} (h : p.Same s t) (h' : p.Same t u) : p.Same s u := by
  cases p <;> exact Eq.trans h' h

theorem OnlyChanges.trans {P : Part → Prop} {s t u : State} (h : OnlyChanges P s t) (h' : OnlyChanges P t u) :
    OnlyChanges P s u :=
  fun p hp => (h p hp).trans (h' p hp)

theorem OnlyChanges.mono {P Q : Part → Prop} {s t : State} (h : OnlyChanges P s t) (hPQ : ∀ p, P p → Q p) : OnlyChanges Q s t :=
  fun p hp => h p fun hP => hp (hPQ p hP)

/-- A loop changes what its bodies change. -/
theorem OnlyChanges.foldl {α : Type} {P : Part → Prop} (f : State → α → State) (l : List α) (s : State)
    (h : ∀ t, ∀ a ∈ l, OnlyChanges P t (f t a)) : OnlyChanges P s (l.foldl f s) := by
  induction l generalizing s with
  | nil => exact OnlyChanges.refl P s
  | cons a l ih =>
    exact (h s a (List.mem_cons_self ..)).trans (ih (f s a) fun t b hb => h t b (List.mem_cons_of_mem a hb))

/-! ### The frame of each primitive update -/

variable (s : State)

theorem onlyChanges_reportIf (b : Bool) (c : Cause) : OnlyChanges (· = .causes) s (s.reportIf b c) := by
  intro p hp
  cases p <;> first | rfl | exact absurd rfl hp

theorem onlyChanges_setV (x : VReg) (b : Byte) : OnlyChanges (· = .v x) s (s.setV x b) := by
  intro p hp
  cases p with
  | v r => exact setV_getV_of_ne s x r b fun e => hp (congrArg Part.v e)
  | _ => rfl

theorem onlyChanges_setI (w : Word) : OnlyChanges (· = .i) s (s.setI w) := by
  intro p hp
  cases p <;> first | rfl | exact absurd rfl hp

theorem onlyChanges_setPc (w : Word) : OnlyChanges (· = .pc) s (s.setPc w) := by
  intro p hp
  cases p <;> first | rfl | exact absurd rfl hp

theorem onlyChanges_setDt (b : Byte) : OnlyChanges (· = .dt) s (s.setDt b) := by
  intro p hp
  cases p <;> first | rfl | exact absurd rfl hp

theorem onlyChanges_setSt (b : Byte) : OnlyChanges (· = .st) s (s.setSt b) := by
  intro p hp
  cases p <;> first | rfl | exact absurd rfl hp

theorem onlyChanges_setMode (m : Mode) : OnlyChanges (· = .mode) s (s.setMode m) := by
  intro p hp
  cases p <;> first | rfl | exact absurd rfl hp

theorem onlyChanges_setWaitx (x : VReg) : OnlyChanges (· = .waitx) s (s.setWaitx x) := by
  intro p hp
  cases p <;> first | rfl | exact absurd rfl hp

theorem onlyChanges_setKprev (w : Word) : OnlyChanges (· = .kprev) s (s.setKprev w) := by
  intro p hp
  cases p <;> first | rfl | exact absurd rfl hp

theorem onlyChanges_setDiag (d : Diag) :
    OnlyChanges (fun p => p = .causes ∨ p = .diagPc ∨ p = .diagOpcode) s (s.setDiag d) := by
  intro p hp
  cases p <;> first | rfl | exact absurd (by simp) hp

theorem onlyChanges_nextInput : OnlyChanges (fun p => p = .sched ∨ p = .stepNo) s s.nextInput := by
  intro p hp
  cases p <;> first | rfl | exact absurd (by simp) hp

theorem onlyChanges_setFb (fb : Framebuffer) : OnlyChanges (fun p => ∃ py px, p = .pixel py px) s (s.setFb fb) := by
  intro p hp
  cases p <;> first | rfl | exact absurd ⟨_, _, rfl⟩ hp

/-! ### The frame of each composed operation -/

theorem onlyChanges_reportBound (a : Nat) : OnlyChanges (· = .causes) s (s.reportBound a) := onlyChanges_reportIf s _ _

theorem onlyChanges_setPcWrapped (a : Nat) : OnlyChanges (fun p => p = .pc ∨ p = .causes) s (s.setPcWrapped a) :=
  ((onlyChanges_reportBound s a).mono fun _ h => .inr h).trans ((onlyChanges_setPc _ _).mono fun _ h => .inl h)

theorem onlyChanges_setIWrapped (a : Nat) : OnlyChanges (fun p => p = .i ∨ p = .causes) s (s.setIWrapped a) :=
  ((onlyChanges_reportBound s a).mono fun _ h => .inr h).trans ((onlyChanges_setI _ _).mono fun _ h => .inl h)

theorem onlyChanges_setVFlag (x : VReg) (b : Byte) (flag : Bool) :
    OnlyChanges (fun p => p = .v x ∨ p = .v vf) s (s.setVFlag x b flag) :=
  ((onlyChanges_setV s x b).mono fun _ h => .inl h).trans ((onlyChanges_setV _ vf _).mono fun _ h => .inr h)

theorem onlyChanges_skipIf (c : Bool) : OnlyChanges (fun p => p = .pc ∨ p = .causes) s (s.skipIf c) := by
  cases c
  · exact OnlyChanges.refl _ s
  · exact onlyChanges_setPcWrapped s _

theorem onlyChanges_memWrite (a : Nat) (b : Byte) :
    OnlyChanges (fun p => p = .byte (wrapA a) ∨ p = .causes) s (s.memWrite a b) := by
  intro p hp
  cases p with
  | byte k => exact Memory.read_write_of_ne fun e => hp (.inl (congrArg Part.byte e))
  | causes => exact absurd (.inr rfl) hp
  | _ => rfl

theorem onlyChanges_push {w : Word} {t : State} (h : s.push w = some t) :
    OnlyChanges (fun p => p = .sp ∨ ∃ j : Fin 16, j.val = s.sp.val ∧ p = .slot j) s t := by
  unfold State.push at h
  split at h
  · rename_i hlt
    cases h
    intro p hp
    cases p with
    | slot j =>
      have hj : s.sp.val ≠ j.val := fun e => hp (.inr ⟨j, e.symm, rfl⟩)
      simp [Part.Same, State.slot, hj]
    | sp => exact absurd (.inl rfl) hp
    | _ => rfl
  · cases h

theorem onlyChanges_pop {w : Word} {t : State} (h : s.pop = some (t, w)) : OnlyChanges (· = .sp) s t := by
  unfold State.pop at h
  split at h
  · cases h
    intro p hp
    cases p <;> first | rfl | exact absurd rfl hp
  · cases h

/-! ### Reports -/

theorem reportIf_has (b : Bool) (c d : Cause) :
    (s.reportIf b c).diag.has d = (s.diag.has d || (decide (d = c) && b)) := by
  have key : ∀ (m : BitVec 4) (b : Bool) (c d : Cause),
      ((m ||| (bif b then c.bit else 0#4)) &&& d.bit != 0#4) = ((m &&& d.bit != 0#4) || (decide (d = c) && b)) := by
    intro m b c d
    cases b <;> cases c <;> cases d <;> revert m <;> decide
  exact key s.diag.causes b c d

theorem reports_reportIf (b : Bool) (c : Cause) : Reports (b = true) c s (s.reportIf b c) := by
  intro d
  rw [reportIf_has]
  simp

theorem reports_reportBound (a : Nat) : Reports (0xFFF < a) .boundViolation s (s.reportBound a) := by
  intro d
  unfold State.reportBound outOfRange
  rw [reportIf_has]
  simp

/-- Where the record is untouched, nothing is reported. -/
theorem reports_of_diag_eq {s t : State} (c : Cause) (h : t.diag = s.diag) : Reports False c s t := by
  intro d
  simp [h]

theorem Reports.congr {b b' : Prop} {c : Cause} {s t : State} (h : Reports b c s t) (e : b ↔ b') : Reports b' c s t := by
  intro d
  rw [h d, e]

theorem Reports.trans {b b' : Prop} {c : Cause} {s t u : State} (h : Reports b c s t) (h' : Reports b' c t u) :
    Reports (b ∨ b') c s u := by
  intro d
  rw [h' d, h d]
  tauto

/-- A loop reports a cause when one of its bodies does. -/
theorem reports_foldl {α : Type} (f : State → α → State) (b : α → Prop) (c : Cause) (l : List α) (s : State)
    (I : State → Prop) (hI : I s) (hf : ∀ t a, a ∈ l → I t → I (f t a) ∧ Reports (b a) c t (f t a)) :
    Reports (∃ a ∈ l, b a) c s (l.foldl f s) := by
  induction l generalizing s with
  | nil => exact (reports_of_diag_eq c rfl).congr (by simp)
  | cons a l ih =>
    obtain ⟨h1, h2⟩ := hf s a (List.mem_cons_self ..) hI
    have h3 := ih (f s a) h1 fun t a' ha' ht => hf t a' (List.mem_cons_of_mem a ha') ht
    exact (h2.trans h3).congr (by simp)

end Sys2Proof.Machine
end

