-- ==== Sys2Proof/Laws/Ops.lean ====
section
/-! SUPPORT. What each shared operation does, once: the flag write, the stack, the key search, the block transfers and the sprite loop. -/

namespace Sys2Proof.Machine

variable (s : State)

/-! ### Data and flag -/

/-- The flag wins when `x = 0xF` (spec/10_state.md R32). -/
theorem setVFlag_getV (x r : VReg) (b : Byte) (flag : Bool) :
    (s.setVFlag x b flag).getV r = if r = vf then flagByte flag else if r = x then b else s.getV r := by
  unfold State.setVFlag
  rw [setV_getV, setV_getV]

theorem skipIf_pc (c : Bool) :
    (s.skipIf c).pc = if c = true then BitVec.ofNat 16 (wrapA (s.pc.toNat + 2)) else s.pc := by
  cases c <;> rfl

theorem reports_skipIf (c : Bool) : Reports (c = true ∧ 0xFFF < s.pc.toNat + 2) .boundViolation s (s.skipIf c) := by
  cases c
  · exact (reports_of_diag_eq _ rfl).congr (by simp)
  · exact (reports_reportBound s (s.pc.toNat + 2)).congr (by simp)

/-- An address `wrapA` returns fits `PC` and `I`. -/
theorem ofNat_wrapA_toNat (a : Nat) : (BitVec.ofNat 16 (wrapA a)).toNat = a % 0x1000 := by
  have h : a % 0x1000 < 0x10000 := (Nat.mod_lt a (by decide)).trans (by decide)
  rw [BitVec.toNat_ofNat, wrapA, Nat.mod_eq_of_lt h]

/-! ### The call stack (spec/41_control_flow.md R161) -/

theorem push_eq_none (w : Word) (h : s.sp.val = 16) : s.push w = none := by
  simp [State.push, h]

theorem push_eq_some (w : Word) (h : s.sp.val < 16) :
    ∃ t, s.push w = some t ∧ t.sp.val = s.sp.val + 1 ∧ t.slot ⟨s.sp.val, h⟩ = w ∧ t.diag = s.diag ∧
      OnlyChanges (fun p => p = .sp ∨ p = .slot ⟨s.sp.val, h⟩) s t := by
  have hp : s.push w = some { s with stack := s.stack.set s.sp.val w h, sp := ⟨s.sp.val + 1, by omega⟩ } := by
    simp [State.push, h]
  refine ⟨_, hp, rfl, by simp [State.slot], rfl, (onlyChanges_push s hp).mono fun p hp => ?_⟩
  rcases hp with hp | ⟨j, hj, hp⟩
  · exact .inl hp
  · subst hp
    exact .inr (congrArg Part.slot (Fin.ext hj))

theorem pop_eq_none (h : s.sp.val = 0) : s.pop = none := by
  simp [State.pop, h]

theorem pop_eq_some (h : 0 < s.sp.val) :
    ∃ t, s.pop = some (t, s.slot ⟨s.sp.val - 1, by omega⟩) ∧ t.sp.val = s.sp.val - 1 ∧ t.diag = s.diag ∧
      OnlyChanges (· = .sp) s t := by
  have hp : s.pop = some ({ s with sp := ⟨s.sp.val - 1, by omega⟩ }, s.slot ⟨s.sp.val - 1, by omega⟩) := by
    simp [State.pop, h]
  exact ⟨_, hp, rfl, rfl, onlyChanges_pop s hp⟩

theorem push_mem {w : Word} {t : State} (h : s.push w = some t) : t.mem = s.mem := by
  unfold State.push at h
  split at h
  · cases h
    rfl
  · cases h

theorem pop_mem {w : Word} {t : State} (h : s.pop = some (t, w)) : t.mem = s.mem := by
  unfold State.pop at h
  split at h
  · cases h
    rfl
  · cases h

/-! ### Keys (spec/40_cycle_driver.md R136) -/

theorem mem_allKeys (k : Key) : k ∈ allKeys := by
  revert k
  decide

theorem newlyPressed_getLsbD (keys prev : Word) (k : Key) :
    (newlyPressed keys prev).getLsbD k.val = (keys.getLsbD k.val && !prev.getLsbD k.val) := by
  simp [newlyPressed]

theorem leastKey_eq_none {w : Word} : leastKey w = none ↔ ∀ k : Key, w.getLsbD k.val = false := by
  simp [leastKey, List.find?_eq_none, mem_allKeys]

theorem leastKey_eq_some {w : Word} {k : Key} (hk : w.getLsbD k.val = true)
    (hmin : ∀ j : Key, j.val < k.val → w.getLsbD j.val = false) : leastKey w = some k := by
  have key : ∀ k : Key, ∃ as bs, allKeys = as ++ k :: bs ∧ ∀ j ∈ as, j.val < k.val := by
    intro k
    refine ⟨allKeys.take k.val, allKeys.drop (k.val + 1), ?_, ?_⟩ <;> revert k <;> decide
  obtain ⟨as, bs, e, h⟩ := key k
  unfold leastKey
  rw [List.find?_eq_some_iff_append]
  refine ⟨hk, as, bs, e, fun j hj => ?_⟩
  simpa using hmin j (h j hj)

theorem leastKey_spec {w : Word} {k : Key} (h : leastKey w = some k) :
    w.getLsbD k.val = true ∧ ∀ j : Key, j.val < k.val → w.getLsbD j.val = false := by
  have hk : w.getLsbD k.val = true := List.find?_some (p := fun k : Key => w.getLsbD k.val) h
  refine ⟨hk, fun j hj => ?_⟩
  by_contra hne
  have hj1 : w.getLsbD j.val = true := by simpa using hne
  obtain ⟨i, hi⟩ : ∃ i : Nat, i ≤ j.val ∧ (∃ hi : i < 16, w.getLsbD i = true) ∧ ∀ l, l < i → ¬ w.getLsbD l = true := by
    have hex : ∃ i, w.getLsbD i = true := ⟨j.val, hj1⟩
    classical
    exact ⟨Nat.find hex, Nat.find_min' hex hj1, ⟨lt_of_le_of_lt (Nat.find_min' hex hj1) j.isLt, Nat.find_spec hex⟩,
      fun l hl => Nat.find_min hex hl⟩
  obtain ⟨hij, ⟨hi16, hi1⟩, hmin⟩ := hi
  have := leastKey_eq_some (w := w) (k := ⟨i, hi16⟩) hi1 fun l hl => by simpa using hmin l.val hl
  rw [h] at this
  have hki : k.val = i := congrArg Fin.val (Option.some.inj this)
  omega

/-! ### Block transfers (spec/44_index_memory.md R228, R229) -/

theorem mem_regsUpTo {x k : VReg} : k ∈ regsUpTo x ↔ k.val ≤ x.val := by
  revert x k
  decide

theorem wrapA_add_ne {i j k : Nat} (hj : j < 16) (hk : k < 16) (h : j ≠ k) : wrapA (i + j) ≠ wrapA (i + k) := by
  unfold wrapA
  omega

/-- The first `n` registers, in the order the loops take them. -/
theorem regs_succ (n : Nat) :
    (List.range (n + 1)).map (Fin.ofNat 16) = (List.range n).map (Fin.ofNat 16) ++ [Fin.ofNat 16 n] := by
  rw [List.range_succ, List.map_append]
  rfl

/-- What `Fx55`'s loop over the first `n` registers does: it stores each at its address, and changes nothing else but the causes. -/
theorem storeLoop_spec (n : Nat) (hn : n ≤ 16) (hwf : Memory.wf s.mem = true) :
    let t := ((List.range n).map (Fin.ofNat 16)).foldl State.storeReg s
    Memory.wf t.mem = true ∧
      (∀ k : VReg, k.val < n → t.byte (wrapA (s.i.toNat + k.val)) = s.getV k) ∧
      OnlyChanges (fun p => p = .causes ∨ ∃ k : VReg, k.val < n ∧ p = .byte (wrapA (s.i.toNat + k.val))) s t := by
  induction n with
  | zero => exact ⟨hwf, fun k hk => absurd hk (Nat.not_lt_zero _), OnlyChanges.refl _ s⟩
  | succ n ih =>
    obtain ⟨h1, h2, h3⟩ := ih (by omega)
    simp only [regs_succ, List.foldl_append, List.foldl_cons, List.foldl_nil]
    generalize ((List.range n).map (Fin.ofNat 16)).foldl State.storeReg s = t at h1 h2 h3
    have hi : t.i = s.i := h3 .i (by simp)
    have hnv : (Fin.ofNat 16 n).val = n := Nat.mod_eq_of_lt (by omega)
    have hv : t.getV (Fin.ofNat 16 n) = s.getV (Fin.ofNat 16 n) := h3 (.v _) (by simp)
    have ha : t.dataAddr (Fin.ofNat 16 n).val = s.i.toNat + n := by rw [State.dataAddr, hi, hnv]
    have hf : OnlyChanges (fun p => p = .byte (wrapA (s.i.toNat + n)) ∨ p = .causes) t (t.storeReg (Fin.ofNat 16 n)) := by
      have := onlyChanges_memWrite t (t.dataAddr (Fin.ofNat 16 n).val) (t.getV (Fin.ofNat 16 n))
      rw [ha] at this
      rw [State.storeReg, ha]
      exact this
    refine ⟨Memory.wf_memWrite t _ _ h1, fun k hk => ?_, (h3.mono ?_).trans (hf.mono ?_)⟩
    · rcases Nat.lt_succ_iff_lt_or_eq.mp hk with hlt | heq
      · have hne := wrapA_add_ne (i := s.i.toNat) k.isLt (by omega : n < 16) (Nat.ne_of_lt hlt)
        have : (t.storeReg (Fin.ofNat 16 n)).byte (wrapA (s.i.toNat + k.val)) = t.byte (wrapA (s.i.toNat + k.val)) :=
          hf (.byte _) (by simpa using hne)
        rw [this, h2 k hlt]
      · have hkn : k = Fin.ofNat 16 n := Fin.ext (heq.trans hnv.symm)
        rw [heq, State.storeReg, ha, hv, hkn]
        exact Memory.read_write_same h1
    · rintro p (hp | ⟨k, hk, hp⟩)
      · exact .inl hp
      · exact .inr ⟨k, by omega, hp⟩
    · rintro p (hp | hp)
      · exact .inr ⟨Fin.ofNat 16 n, by omega, by rw [hnv]; exact hp⟩
      · exact .inl hp

theorem reports_storeLoop (l : List VReg) :
    Reports (∃ k ∈ l, 0xFFF < s.i.toNat + k.val) .boundViolation s (l.foldl State.storeReg s) :=
  reports_foldl State.storeReg _ _ l s (fun t => t.i = s.i) rfl fun t k _ ht =>
    ⟨ht, (reports_reportBound t (t.dataAddr k.val)).congr (by rw [State.dataAddr, ht])⟩

theorem wf_storeLoop (l : List VReg) (hwf : Memory.wf s.mem = true) : Memory.wf (l.foldl State.storeReg s).mem = true := by
  induction l generalizing s with
  | nil => exact hwf
  | cons k l ih => exact ih _ (Memory.wf_memWrite s _ _ hwf)

/-- The frame of `Fx55`'s loop holds whatever the memory list looks like. -/
theorem onlyChanges_storeLoop (l : List VReg) :
    OnlyChanges (fun p => p = .causes ∨ ∃ k ∈ l, p = .byte (wrapA (s.i.toNat + k.val))) s (l.foldl State.storeReg s) := by
  induction l generalizing s with
  | nil => exact OnlyChanges.refl _ s
  | cons k l ih =>
    have h1 := onlyChanges_memWrite s (s.dataAddr k.val) (s.getV k)
    refine (h1.mono ?_).trans ((ih (s.storeReg k)).mono ?_)
    · rintro p (hp | hp)
      · exact .inr ⟨k, List.mem_cons_self .., hp⟩
      · exact .inl hp
    · rintro p (hp | ⟨j, hj, hp⟩)
      · exact .inl hp
      · exact .inr ⟨j, List.mem_cons_of_mem k hj, hp⟩

/-- The frame of `Fx65`'s loop. -/
theorem onlyChanges_loadLoop (l : List VReg) :
    OnlyChanges (fun p => p = .causes ∨ ∃ k ∈ l, p = .v k) s (l.foldl State.loadReg s) :=
  OnlyChanges.foldl _ l s fun t k hk =>
    ((onlyChanges_reportBound t _).mono fun _ h => .inl h).trans
      ((onlyChanges_setV _ k _).mono fun _ h => .inr ⟨k, hk, h⟩)

/-- What `Fx65`'s loop loads. -/
theorem loadLoop_getV (l : List VReg) (k : VReg) (hk : k ∈ l) :
    (l.foldl State.loadReg s).getV k = s.byte (wrapA (s.i.toNat + k.val)) := by
  induction l generalizing s with
  | nil => cases hk
  | cons a l ih =>
    by_cases hl : k ∈ l
    · exact ih (s.loadReg a) hl
    · have hka : k = a := by simpa [hl] using hk
      subst hka
      have h := onlyChanges_loadLoop (s.loadReg k) l (.v k) (by simpa using hl)
      exact Eq.trans h (setV_getV_same _ k _)

theorem loadLoop_mem (l : List VReg) : (l.foldl State.loadReg s).mem = s.mem := by
  induction l generalizing s with
  | nil => rfl
  | cons k l ih => exact ih (s.loadReg k)

theorem reports_loadLoop (l : List VReg) :
    Reports (∃ k ∈ l, 0xFFF < s.i.toNat + k.val) .boundViolation s (l.foldl State.loadReg s) :=
  reports_foldl State.loadReg _ _ l s (fun t => t.i = s.i) rfl fun t k _ ht =>
    ⟨ht, (reports_reportBound t (t.dataAddr k.val)).congr (by rw [State.dataAddr, ht])⟩

end Sys2Proof.Machine
end

