-- ==== Sys2Proof/Laws/Draw.lean ====
section
/-! SUPPORT. The sprite loop of `Dxyn` (spec/45_display.md R242) in closed form: which pixels it inverts, and when it finds a collision. -/

namespace Sys2Proof.Machine

/-- The pixels of sprite row `r` in its first `m` columns, byte `b`, start position `(x0, y0)`. -/
def rowBit (x0 y0 : Nat) (b : Byte) (r m : Nat) (py : Fin 32) (px : Fin 64) : Bool :=
  decide (py.val = (y0 + r) % 32) && decide ((px.val + 64 - x0) % 64 < m) && b.getLsbD (7 - (px.val + 64 - x0) % 64)

theorem toggle_pixel (fb : Framebuffer) (py qy : Fin 32) (px qx : Fin 64) :
    (Framebuffer.toggle fb py px).pixel qy qx = (fb.pixel qy qx ^^ (decide (qy = py) && decide (qx = px))) := by
  unfold Framebuffer.toggle Framebuffer.pixel
  by_cases hy : qy = py
  · subst hy
    by_cases hx : qx = px
    · subst hx; simp
    · have hne : qx.val ≠ px.val := fun e => hx (Fin.ext e)
      have h1 : (1#64 <<< px.val).getLsbD qx.val = false := by
        rw [BitVec.getLsbD_shiftLeft, BitVec.getLsbD_one]
        by_cases hlt : qx.val < px.val
        · simp [hlt]
        · have : qx.val - px.val ≠ 0 := by omega
          simp [this]
      simp only [Vector.getElem_set_self, BitVec.getLsbD_xor, h1]
      simp [hx]
  · have hne : py.val ≠ qy.val := fun e => hy (Fin.ext e.symm)
    simp [hy, hne]

/-- The columns drawn so far, in closed form. -/
theorem drawCols_spec (x0 y0 : Nat) (hx : x0 < 64) (b : Byte) (r m : Nat) (hm : m ≤ 8) (acc : Framebuffer × Bool) :
    let out := (List.range m).foldl (drawPixel x0 y0 b r) acc
    (∀ py px, out.1.pixel py px = (acc.1.pixel py px ^^ rowBit x0 y0 b r m py px)) ∧
      (out.2 = true ↔ acc.2 = true ∨ ∃ py px, rowBit x0 y0 b r m py px = true ∧ acc.1.pixel py px = true) := by
  induction m with
  | zero => simp [rowBit]
  | succ m ih =>
    obtain ⟨h1, h2⟩ := ih (by omega)
    simp only [List.range_succ, List.foldl_append, List.foldl_cons, List.foldl_nil]
    generalize (List.range m).foldl (drawPixel x0 y0 b r) acc = out at h1 h2
    have hpy : ∀ py : Fin 32, py = Fin.ofNat 32 (y0 + r) ↔ py.val = (y0 + r) % 32 := fun py => Fin.ext_iff
    have hpx : ∀ px : Fin 64, px = Fin.ofNat 64 (x0 + m) ↔ (px.val + 64 - x0) % 64 = m := by
      intro px
      have := px.isLt
      rw [Fin.ext_iff]
      show px.val = (x0 + m) % 64 ↔ _
      omega
    have hrow : ∀ py px, rowBit x0 y0 b r (m + 1) py px =
        (rowBit x0 y0 b r m py px ^^
          (decide (py = Fin.ofNat 32 (y0 + r)) && decide (px = Fin.ofNat 64 (x0 + m)) && b.getLsbD (7 - m))) := by
      intro py px
      unfold rowBit
      simp only [hpy, hpx]
      by_cases hd : (px.val + 64 - x0) % 64 = m
      · rw [hd]; simp
      · have : (px.val + 64 - x0) % 64 < m + 1 ↔ (px.val + 64 - x0) % 64 < m := by omega
        simp [hd, this]
    have hself : rowBit x0 y0 b r m (Fin.ofNat 32 (y0 + r)) (Fin.ofNat 64 (x0 + m)) = false := by
      unfold rowBit
      rw [(hpx _).mp rfl]
      simp
    unfold drawPixel
    by_cases hb : b.getLsbD (7 - m) = true
    · rw [if_pos hb]
      refine ⟨fun py px => ?_, ?_⟩
      · rw [toggle_pixel, h1, hrow, hb]
        simp
      · rw [Bool.or_eq_true, h2, h1, hself, Bool.xor_false]
        constructor
        · rintro ((h | ⟨py, px, hr, hp⟩) | h)
          · exact .inl h
          · refine .inr ⟨py, px, ?_, hp⟩
            rw [hrow, hr]
            have : ¬(py = Fin.ofNat 32 (y0 + r) ∧ px = Fin.ofNat 64 (x0 + m)) := by
              rintro ⟨rfl, rfl⟩
              rw [hself] at hr
              cases hr
            simp only [Bool.true_xor, Bool.not_eq_true', Bool.and_eq_false_iff, decide_eq_false_iff_not]
            tauto
          · refine .inr ⟨_, _, ?_, h⟩
            rw [hrow, hself, hb]
            simp
        · rintro (h | ⟨py, px, hr, hp⟩)
          · exact .inl (.inl h)
          · rw [hrow, hb] at hr
            by_cases hh : py = Fin.ofNat 32 (y0 + r) ∧ px = Fin.ofNat 64 (x0 + m)
            · exact .inr (by rw [← hh.1, ← hh.2]; exact hp)
            · refine .inl (.inr ⟨py, px, ?_, hp⟩)
              have : (decide (py = Fin.ofNat 32 (y0 + r)) && decide (px = Fin.ofNat 64 (x0 + m)) && true) = false := by
                simp only [Bool.and_true, Bool.and_eq_false_iff, decide_eq_false_iff_not]
                tauto
              rw [this, Bool.xor_false] at hr
              exact hr
    · rw [if_neg hb]
      have hbf : b.getLsbD (7 - m) = false := by simpa using hb
      have hsame : ∀ py px, rowBit x0 y0 b r (m + 1) py px = rowBit x0 y0 b r m py px := by
        intro py px
        rw [hrow, hbf]
        simp
      simp only [hsame]
      exact ⟨h1, h2⟩

/-- One row of a sprite (R242). -/
theorem drawRow_spec (x0 y0 : Nat) (hx : x0 < 64) (b : Byte) (r : Nat) (acc : Framebuffer × Bool) :
    (∀ py px, (drawRow x0 y0 b r acc).1.pixel py px = (acc.1.pixel py px ^^ rowBit x0 y0 b r 8 py px)) ∧
      ((drawRow x0 y0 b r acc).2 = true ↔
        acc.2 = true ∨ ∃ py px, rowBit x0 y0 b r 8 py px = true ∧ acc.1.pixel py px = true) :=
  drawCols_spec x0 y0 hx b r 8 (Nat.le_refl 8) acc

/-- The pixels of the first `n` rows of the sprite at `I`. -/
def spriteBitAt (s : State) (x0 y0 n : Nat) (py : Fin 32) (px : Fin 64) : Bool :=
  decide ((py.val + 32 - y0) % 32 < n) && decide ((px.val + 64 - x0) % 64 < 8) &&
    (s.byte ((s.i.toNat + (py.val + 32 - y0) % 32) % 0x1000)).getLsbD (7 - (px.val + 64 - x0) % 64)

/-- The frame of the sprite loop: pixels and causes. -/
theorem onlyChanges_drawSprite (s : State) (x0 y0 n : Nat) :
    OnlyChanges (fun p => p = .causes ∨ ∃ py px, p = .pixel py px) s (s.drawSprite x0 y0 n).1 := by
  unfold State.drawSprite
  induction n with
  | zero => exact OnlyChanges.refl _ s
  | succ n ih =>
    rw [List.range_succ, List.foldl_append]
    refine ih.trans ?_
    exact ((onlyChanges_reportBound _ _).mono fun _ h => .inl h).trans
      ((onlyChanges_setFb _ _).mono fun _ h => .inr h)

theorem drawSprite_mem (s : State) (x0 y0 n : Nat) : (s.drawSprite x0 y0 n).1.mem = s.mem := by
  unfold State.drawSprite
  induction n with
  | zero => rfl
  | succ n ih =>
    rw [List.range_succ, List.foldl_append]
    exact ih

/-- What the sprite loop reports: an address above 0xFFF in some row. -/
theorem reports_drawSprite (s : State) (x0 y0 n : Nat) :
    Reports (∃ r, r < n ∧ 0xFFF < s.i.toNat + r) .boundViolation s (s.drawSprite x0 y0 n).1 := by
  induction n with
  | zero => exact (reports_of_diag_eq _ rfl).congr (by simp)
  | succ n ih =>
    have hi : (s.drawSprite x0 y0 n).1.i = s.i := onlyChanges_drawSprite s x0 y0 n .i (by simp)
    have hstep : s.drawSprite x0 y0 (n + 1) = State.drawRowAt x0 y0 (s.drawSprite x0 y0 n) n := by
      simp only [State.drawSprite, List.range_succ, List.foldl_append, List.foldl_cons, List.foldl_nil]
    rw [hstep]
    have h := reports_reportBound (s.drawSprite x0 y0 n).1 ((s.drawSprite x0 y0 n).1.dataAddr n)
    rw [State.dataAddr, hi] at h
    have h' : Reports (0xFFF < s.i.toNat + n) .boundViolation (s.drawSprite x0 y0 n).1
        (State.drawRowAt x0 y0 (s.drawSprite x0 y0 n) n).1 := by
      intro d
      have := h d
      simpa [State.drawRowAt, State.memRead, State.dataAddr, hi] using this
    refine (ih.trans h').congr ?_
    constructor
    · rintro (⟨r, hr, h⟩ | h)
      · exact ⟨r, by omega, h⟩
      · exact ⟨n, by omega, h⟩
    · rintro ⟨r, hr, hgt⟩
      rcases Nat.lt_succ_iff_lt_or_eq.mp hr with hlt | rfl
      · exact .inl ⟨r, hlt, hgt⟩
      · exact .inr hgt

/-- The sprite loop in closed form (R242): it inverts the pixels under the sprite's set bits, and finds a collision when one of them was on. -/
theorem drawSprite_spec (s : State) (x0 y0 n : Nat) (hx : x0 < 64) (hy : y0 < 32) (hn : n ≤ 16) :
    (∀ py px, (s.drawSprite x0 y0 n).1.fbPort py px = (s.fbPort py px ^^ spriteBitAt s x0 y0 n py px)) ∧
      ((s.drawSprite x0 y0 n).2 = true ↔ ∃ py px, spriteBitAt s x0 y0 n py px = true ∧ s.fbPort py px = true) := by
  induction n with
  | zero => simp [State.drawSprite, spriteBitAt]
  | succ n ih =>
    obtain ⟨h1, h2⟩ := ih (by omega)
    have hstep : s.drawSprite x0 y0 (n + 1) = State.drawRowAt x0 y0 (s.drawSprite x0 y0 n) n := by
      simp only [State.drawSprite, List.range_succ, List.foldl_append, List.foldl_cons, List.foldl_nil]
    rw [hstep]
    have hi : (s.drawSprite x0 y0 n).1.i = s.i := onlyChanges_drawSprite s x0 y0 n .i (by simp)
    have hb : ∀ a, (s.drawSprite x0 y0 n).1.byte a = s.byte a := fun a => onlyChanges_drawSprite s x0 y0 n (.byte a) (by simp)
    generalize s.drawSprite x0 y0 n = acc at h1 h2 hi hb
    obtain ⟨h3, h4⟩ := drawRow_spec x0 y0 hx (s.byte ((s.i.toNat + n) % 0x1000)) n (acc.1.fb, acc.2)
    have hrd : (acc.1.memRead (acc.1.dataAddr n)).2 = s.byte ((s.i.toNat + n) % 0x1000) := by
      rw [State.memRead, State.dataAddr, hi, hb]
      rfl
    have e1 : ∀ py px, (State.drawRowAt x0 y0 acc n).1.fbPort py px =
        (drawRow x0 y0 (s.byte ((s.i.toNat + n) % 0x1000)) n (acc.1.fb, acc.2)).1.pixel py px := by
      intro py px
      rw [State.drawRowAt, hrd]
      rfl
    have e2 : (State.drawRowAt x0 y0 acc n).2 =
        (drawRow x0 y0 (s.byte ((s.i.toNat + n) % 0x1000)) n (acc.1.fb, acc.2)).2 := by
      rw [State.drawRowAt, hrd]
      rfl
    have hdy : ∀ py : Fin 32, py.val = (y0 + n) % 32 ↔ (py.val + 32 - y0) % 32 = n := by
      intro py
      have := py.isLt
      omega
    have hrow : ∀ py px, spriteBitAt s x0 y0 (n + 1) py px =
        (spriteBitAt s x0 y0 n py px ^^ rowBit x0 y0 (s.byte ((s.i.toNat + n) % 0x1000)) n 8 py px) := by
      intro py px
      unfold spriteBitAt rowBit
      simp only [hdy]
      by_cases hd : (py.val + 32 - y0) % 32 = n
      · rw [hd]; simp
      · have : (py.val + 32 - y0) % 32 < n + 1 ↔ (py.val + 32 - y0) % 32 < n := by omega
        simp [hd, this]
    have hdisj : ∀ py px, rowBit x0 y0 (s.byte ((s.i.toNat + n) % 0x1000)) n 8 py px = true →
        spriteBitAt s x0 y0 n py px = false := by
      intro py px h
      unfold rowBit at h
      simp only [Bool.and_eq_true, decide_eq_true_eq, hdy] at h
      unfold spriteBitAt
      rw [h.1.1]
      simp
    have hpix : ∀ py px, Framebuffer.pixel acc.1.fb py px = (s.fbPort py px ^^ spriteBitAt s x0 y0 n py px) := h1
    refine ⟨fun py px => ?_, ?_⟩
    · rw [e1, h3, hrow, hpix]
      simp
    · rw [e2, h4, h2]
      simp only [hpix]
      constructor
      · rintro (⟨py, px, hr, hp⟩ | ⟨py, px, hr, hp⟩)
        · refine ⟨py, px, ?_, hp⟩
          rw [hrow, hr]
          by_contra hc
          have hrb : rowBit x0 y0 (s.byte ((s.i.toNat + n) % 0x1000)) n 8 py px = true := by simpa using hc
          rw [hdisj py px hrb] at hr
          cases hr
        · refine ⟨py, px, ?_, ?_⟩
          · rw [hrow, hr, hdisj py px hr]
            rfl
          · rw [hdisj py px hr] at hp
            simpa using hp
      · rintro ⟨py, px, hr, hp⟩
        by_cases hrb : rowBit x0 y0 (s.byte ((s.i.toNat + n) % 0x1000)) n 8 py px = true
        · refine .inr ⟨py, px, hrb, ?_⟩
          rw [hdisj py px hrb, hp]
          rfl
        · refine .inl ⟨py, px, ?_, hp⟩
          rw [hrow] at hr
          simpa [hrb] using hr

end Sys2Proof.Machine
end

