-- ==== Sys2Proof/Laws/Cycle.lean ====
section
/-! SUPPORT. What the parts of a step around the handler do, and what a step that answers a next state has done. -/

namespace Sys2Proof.Machine

theorem beginDiag_has (s : State) (o : Option Word) (c : Cause) : (s.beginDiag o).diag.has c = false := by
  show (0#4 &&& c.bit != 0#4) = false
  cases c <;> decide

theorem onlyChanges_beginDiag (s : State) (o : Option Word) :
    OnlyChanges (fun p => p = .causes ∨ p = .diagPc ∨ p = .diagOpcode) s (s.beginDiag o) :=
  onlyChanges_setDiag s _

/-- The decay of a byte as natural numbers (spec/40_cycle_driver.md R138). -/
theorem decayed_toNat (tick : Bool) (dt : Byte) :
    (decayed tick dt).toNat = if tick = true then dt.toNat - 1 else dt.toNat := by
  have hlt := dt.isLt
  unfold decayed aluSub
  by_cases h0 : dt = 0#8
  · simp [h0]
  · have hne : dt.toNat ≠ 0 := fun e => h0 (BitVec.eq_of_toNat_eq e)
    by_cases ht : tick = true
    · simp [h0, ht]
      omega
    · simp [ht]

/-- The end of a step, for a handler that left the inputs alone. -/
theorem stepEnd_endStep {s u : State} (hs : u.sched = s.sched) (hn : u.stepNo = s.stepNo) : StepEnd s u.dt u.endStep := by
  have hin : u.input = s.input := by rw [State.input, State.input, hs, hn]
  refine ⟨?_, ?_, ?_, ?_⟩
  · rw [← hin]
    exact decayed_toNat u.input.tick u.dt
  · rw [← hin]
    rfl
  · rw [← hs]
    rfl
  · rw [← hn]
    rfl

theorem onlyChanges_endStep (t : State) :
    OnlyChanges (fun p => p = .dt ∨ p = .kprev ∨ p = .sched ∨ p = .stepNo) t t.endStep := by
  intro p hp
  cases p <;> first | rfl | exact absurd (by simp) hp

/-! ### The state the handler runs on -/

theorem onlyChanges_fetched (s : State) :
    OnlyChanges (fun p => p = .pc ∨ p = .causes ∨ p = .diagPc ∨ p = .diagOpcode) s s.fetched := by
  intro p hp
  cases p <;> first | rfl | exact absurd (by simp) hp

theorem fetched_pc_toNat (s : State) : s.fetched.pc.toNat = (s.pc.toNat + 2) % 0x1000 := ofNat_wrapA_toNat _

@[simp] theorem fetched_v (s : State) : s.fetched.v = s.v := rfl
@[simp] theorem fetched_i (s : State) : s.fetched.i = s.i := rfl
@[simp] theorem fetched_sp (s : State) : s.fetched.sp = s.sp := rfl
@[simp] theorem fetched_stack (s : State) : s.fetched.stack = s.stack := rfl
@[simp] theorem fetched_dt (s : State) : s.fetched.dt = s.dt := rfl
@[simp] theorem fetched_st (s : State) : s.fetched.st = s.st := rfl
@[simp] theorem fetched_mode (s : State) : s.fetched.mode = s.mode := rfl
@[simp] theorem fetched_waitx (s : State) : s.fetched.waitx = s.waitx := rfl
@[simp] theorem fetched_kprev (s : State) : s.fetched.kprev = s.kprev := rfl
@[simp] theorem fetched_fb (s : State) : s.fetched.fb = s.fb := rfl
@[simp] theorem fetched_sched (s : State) : s.fetched.sched = s.sched := rfl
@[simp] theorem fetched_stepNo (s : State) : s.fetched.stepNo = s.stepNo := rfl
@[simp] theorem fetched_mem (s : State) : s.fetched.mem = s.mem := rfl

@[simp] theorem fetched_diag_pc (s : State) : s.fetched.diag.pc = s.pc.setWidth 12 := rfl

@[simp] theorem fetched_diag_opcode (s : State) : s.fetched.diag.opcode = some s.opcodeAtPc := rfl

/-- The fetch and the advance report when an address passes 0xFFF (spec/20_memory.md R74). -/
theorem fetched_has (s : State) (c : Cause) :
    s.fetched.diag.has c = true ↔ c = .boundViolation ∧ 0xFFF < s.pc.toNat + 2 := by
  have h1 := reports_reportBound (s.beginDiag (some s.opcodeAtPc)) (s.pc.toNat + 1) c
  have h2 := reports_reportBound ((s.beginDiag (some s.opcodeAtPc)).reportBound (s.pc.toNat + 1)) (s.pc.toNat + 2) c
  unfold State.fetched State.setPcWrapped
  rw [setPc_diag, h2, h1, beginDiag_has]
  simp only [Bool.false_eq_true, false_or]
  constructor
  · rintro (⟨h, _⟩ | h)
    · exact ⟨h, by omega⟩
    · exact h
  · exact .inr

/-! ### Fields that the unknown-opcode policy and the end of a step leave alone -/

@[simp] theorem executeUnknown_v (s : State) : s.executeUnknown.v = s.v := rfl
@[simp] theorem executeUnknown_i (s : State) : s.executeUnknown.i = s.i := rfl
@[simp] theorem executeUnknown_pc (s : State) : s.executeUnknown.pc = s.pc := rfl
@[simp] theorem executeUnknown_sp (s : State) : s.executeUnknown.sp = s.sp := rfl
@[simp] theorem executeUnknown_stack (s : State) : s.executeUnknown.stack = s.stack := rfl
@[simp] theorem executeUnknown_dt (s : State) : s.executeUnknown.dt = s.dt := rfl
@[simp] theorem executeUnknown_st (s : State) : s.executeUnknown.st = s.st := rfl
@[simp] theorem executeUnknown_mode (s : State) : s.executeUnknown.mode = s.mode := rfl
@[simp] theorem executeUnknown_waitx (s : State) : s.executeUnknown.waitx = s.waitx := rfl
@[simp] theorem executeUnknown_kprev (s : State) : s.executeUnknown.kprev = s.kprev := rfl
@[simp] theorem executeUnknown_mem (s : State) : s.executeUnknown.mem = s.mem := rfl
@[simp] theorem executeUnknown_fb (s : State) : s.executeUnknown.fb = s.fb := rfl
@[simp] theorem executeUnknown_sched (s : State) : s.executeUnknown.sched = s.sched := rfl
@[simp] theorem executeUnknown_stepNo (s : State) : s.executeUnknown.stepNo = s.stepNo := rfl

@[simp] theorem endStep_v (t : State) : t.endStep.v = t.v := rfl
@[simp] theorem endStep_i (t : State) : t.endStep.i = t.i := rfl
@[simp] theorem endStep_pc (t : State) : t.endStep.pc = t.pc := rfl
@[simp] theorem endStep_sp (t : State) : t.endStep.sp = t.sp := rfl
@[simp] theorem endStep_stack (t : State) : t.endStep.stack = t.stack := rfl
@[simp] theorem endStep_st (t : State) : t.endStep.st = t.st := rfl
@[simp] theorem endStep_mode (t : State) : t.endStep.mode = t.mode := rfl
@[simp] theorem endStep_waitx (t : State) : t.endStep.waitx = t.waitx := rfl
@[simp] theorem endStep_mem (t : State) : t.endStep.mem = t.mem := rfl
@[simp] theorem endStep_fb (t : State) : t.endStep.fb = t.fb := rfl
@[simp] theorem endStep_diag (t : State) : t.endStep.diag = t.diag := rfl

/-! ### The keypad poll (spec/40_cycle_driver.md R136) -/

theorem newKey_iff (s : State) (k : Key) : s.newKey k ↔ (newlyPressed s.input.keys s.kprev).getLsbD k.val = true := by
  rw [newlyPressed_getLsbD, Bool.and_eq_true, Bool.not_eq_true']
  rfl

theorem awaitPoll_of_no_newKey (s : State) (h : ∀ k, ¬ s.newKey k) : s.awaitPoll = s := by
  have hn : leastKey (newlyPressed s.input.keys s.kprev) = none :=
    leastKey_eq_none.mpr fun k => by simpa [newKey_iff] using h k
  simp only [State.awaitPoll, hn]

theorem awaitPoll_of_least (s : State) (k : Key) (h : s.newKey k) (hmin : ∀ j : Key, j.val < k.val → ¬ s.newKey j) :
    s.awaitPoll = (s.setV s.waitx (BitVec.ofNat 8 k.val)).setMode .running := by
  have hk : leastKey (newlyPressed s.input.keys s.kprev) = some k :=
    leastKey_eq_some ((newKey_iff s k).mp h) fun j hj => by simpa [newKey_iff] using hmin j hj
  simp only [State.awaitPoll, hk]

/-- The poll either finds no new key and does nothing, or writes `V[WAITX]` and returns to `Running`. -/
theorem awaitPoll_cases (s : State) :
    ((∀ k, ¬ s.newKey k) ∧ s.awaitPoll = s) ∨
      ∃ k, s.newKey k ∧ s.awaitPoll = (s.setV s.waitx (BitVec.ofNat 8 k.val)).setMode .running := by
  cases h : leastKey (newlyPressed s.input.keys s.kprev) with
  | none =>
    have hno : ∀ k, ¬ s.newKey k := fun k => by
      rw [newKey_iff, leastKey_eq_none.mp h k]
      simp
    exact .inl ⟨hno, awaitPoll_of_no_newKey s hno⟩
  | some k =>
    obtain ⟨hk, hmin⟩ := leastKey_spec h
    have hkey := (newKey_iff s k).mpr hk
    refine .inr ⟨k, hkey, awaitPoll_of_least s k hkey fun j hj => ?_⟩
    rw [newKey_iff, hmin j hj]
    simp

/-! ### What a step does -/

theorem step_awaitKey (s : State) (h : s.mode = .awaitKey) : step s = .next s.awaitStep := by
  simp only [step, h]

theorem step_of_pcOutside (s : State) (h : s.mode = .running) (hpc : 0xFFF < s.pc.toNat) :
    step s = .fault (.pcOutsideMemory s.pc) := by
  have hin : s.pcInMemory = false := by
    simp only [State.pcInMemory, decide_eq_false_iff_not]
    omega
  simp [step, h, hin]

theorem step_of_rejected (s : State) (r : Reject) (h : s.mode = .running) (hpc : s.pc.toNat ≤ 0xFFF)
    (hd : decodeWord s.opcodeAtPc = .rejected r) : step s = .next s.fetched.executeUnknown.endStep := by
  have hin : s.pcInMemory = true := by simpa [State.pcInMemory] using hpc
  simp only [step, h, hin, if_true, hd]

theorem step_of_runs (s : State) (i : Instr) (h : s.runs i) :
    step s = (match exec i s.fetched with
      | .next t => .next t.endStep
      | .fault r => .fault r
      | .refused r => .refused r) := by
  obtain ⟨hm, hpc, hd⟩ := h
  have hin : s.pcInMemory = true := by simpa [State.pcInMemory] using hpc
  cases he : exec i s.fetched <;> simp only [step, hm, hin, if_true, hd, he]

/-- Everything a step that answers a next state can have been: a poll, an unknown opcode, or a handler that answered a next state. -/
theorem step_cases {s t : State} (h : step s = .next t) :
    (s.mode = .awaitKey ∧ t = s.awaitStep) ∨
      (s.mode = .running ∧ s.pc.toNat ≤ 0xFFF ∧ (∃ r, decodeWord s.opcodeAtPc = .rejected r) ∧
        t = s.fetched.executeUnknown.endStep) ∨
      ∃ i u, s.runs i ∧ exec i s.fetched = .next u ∧ t = u.endStep := by
  cases hm : s.mode with
  | awaitKey =>
    rw [step_awaitKey s hm] at h
    exact .inl ⟨rfl, (Host.Outcome.next.inj h).symm⟩
  | running =>
    by_cases hpc : s.pc.toNat ≤ 0xFFF
    · cases hd : decodeWord s.opcodeAtPc with
      | rejected r =>
        rw [step_of_rejected s r hm hpc hd] at h
        exact .inr (.inl ⟨rfl, hpc, ⟨r, rfl⟩, (Host.Outcome.next.inj h).symm⟩)
      | instr i =>
        have hr : s.runs i := ⟨hm, hpc, hd⟩
        rw [step_of_runs s i hr] at h
        cases he : exec i s.fetched with
        | next u =>
          rw [he] at h
          exact .inr (.inr ⟨i, u, hr, he, (Host.Outcome.next.inj h).symm⟩)
        | fault r => rw [he] at h; cases h
        | refused r => rw [he] at h; cases h
    · rw [step_of_pcOutside s hm (by omega)] at h
      cases h

end Sys2Proof.Machine
end

