-- ==== Sys2Proof/Laws/Encode.lean ====
section
/-! SUPPORT. The fields (spec/30_encoding.md R101) of a word put together by a format (R102). -/

namespace Sys2Proof

variable (op n : BitVec 4) (nnn : BitVec 12) (kk : Byte) (x y : VReg)

@[simp] theorem regOf_regBits : regOf (regBits x) = x := rfl

@[simp] theorem fieldOp_encNnn : fieldOp (encNnn op nnn) = op := BitVec.extractLsb'_append_eq_left

@[simp] theorem fieldNnn_encNnn : fieldNnn (encNnn op nnn) = nnn := BitVec.extractLsb'_append_eq_right

@[simp] theorem fieldOp_encXkk : fieldOp (encXkk op x kk) = op := BitVec.extractLsb'_append_eq_left

@[simp] theorem fieldX_encXkk : fieldX (encXkk op x kk) = x :=
  congrArg regOf ((BitVec.extractLsb'_append_eq_of_add_le (by decide)).trans BitVec.extractLsb'_append_eq_left)

@[simp] theorem fieldKk_encXkk : fieldKk (encXkk op x kk) = kk :=
  (BitVec.extractLsb'_append_eq_of_add_le (by decide)).trans BitVec.extractLsb'_append_eq_right

@[simp] theorem fieldOp_encXyn : fieldOp (encXyn op x y n) = op := BitVec.extractLsb'_append_eq_left

@[simp] theorem fieldX_encXyn : fieldX (encXyn op x y n) = x :=
  congrArg regOf ((BitVec.extractLsb'_append_eq_of_add_le (by decide)).trans BitVec.extractLsb'_append_eq_left)

@[simp] theorem fieldY_encXyn : fieldY (encXyn op x y n) = y :=
  congrArg regOf ((BitVec.extractLsb'_append_eq_of_add_le (by decide)).trans
    ((BitVec.extractLsb'_append_eq_of_add_le (by decide)).trans BitVec.extractLsb'_append_eq_left))

@[simp] theorem fieldN_encXyn : fieldN (encXyn op x y n) = n :=
  (BitVec.extractLsb'_append_eq_of_add_le (by decide)).trans
    ((BitVec.extractLsb'_append_eq_of_add_le (by decide)).trans BitVec.extractLsb'_append_eq_right)

end Sys2Proof
end

