-- ==== Sys2Proof/Laws/Exec.lean ====
section
/-! SUPPORT. What each instruction may write, and what a whole step may write: the frame of `exec` and of `step` in one lemma each. -/

namespace Sys2Proof.Machine

/-- The parts of the state that an instruction's handler may write. -/
def mayWrite : Instr → Part → Prop
  | .sys _, _ => False
  | .cls, p => ∃ py px, p = .pixel py px
  | .ret, p => p = .pc ∨ p = .sp ∨ p = .causes
  | .call _, p => p = .pc ∨ p = .sp ∨ p = .causes ∨ ∃ j, p = .slot j
  | .jp _, p => p = .pc
  | .jpV0 _, p | .seImm _ _, p | .sneImm _ _, p | .seReg _ _, p | .sneReg _ _, p | .skp _, p | .sknp _, p => p = .pc ∨ p = .causes
  | .ldImm x _, p | .addImm x _, p | .ldReg x _, p | .orReg x _, p | .andReg x _, p | .xorReg x _, p => p = .v x
  | .rnd x _, p | .ldVxDt x, p => p = .v x
  | .addReg x _, p | .subReg x _, p | .shr x, p | .subnReg x _, p | .shl x, p => p = .v x ∨ p = .v vf
  | .ldI _, p | .ldFVx _, p => p = .i
  | .addIVx _, p => p = .i ∨ p = .causes
  | .ldBVx _, p | .ldMemVx _, p => p = .causes ∨ ∃ a, p = .byte a
  | .ldVxMem x, p => p = .causes ∨ ∃ k : VReg, k.val ≤ x.val ∧ p = .v k
  | .drw _ _ _, p => p = .causes ∨ p = .v vf ∨ ∃ py px, p = .pixel py px
  | .ldVxK _, p => p = .waitx ∨ p = .mode
  | .ldDtVx _, p => p = .dt
  | .ldStVx _, p => p = .st

/-- A handler that answers a next state has written nothing but what `mayWrite` lists. -/
theorem exec_onlyChanges {i : Instr} {s u : State} (h : exec i s = .next u) : OnlyChanges (mayWrite i) s u := by
  cases i <;> replace h := Host.Outcome.next.inj h <;> subst h
  case sys => exact OnlyChanges.refl _ _
  case cls => exact onlyChanges_setFb _ _
  case jp => exact onlyChanges_setPc _ _
  case ret =>
    by_cases h : 0 < s.sp.val
    · obtain ⟨t, ht, -, -, h3⟩ := pop_eq_some s h
      rw [ht]
      exact (h3.mono (by simp only [mayWrite]; tauto)).trans ((onlyChanges_setPc _ _).mono (by simp only [mayWrite]; tauto))
    · rw [pop_eq_none s (by omega)]
      exact (onlyChanges_reportIf _ _ _).mono (by simp only [mayWrite]; tauto)
  case call =>
    by_cases h : s.sp.val < 16
    · obtain ⟨t, ht, -, -, -, h4⟩ := push_eq_some s s.pc h
      rw [ht]
      refine (h4.mono ?_).trans ((onlyChanges_setPc _ _).mono (by simp only [mayWrite]; tauto))
      rintro p (h | h) <;> simp [mayWrite, h]
    · rw [push_eq_none s _ (by omega)]
      exact (onlyChanges_reportIf _ _ _).mono (by simp only [mayWrite]; tauto)
  case seImm | sneImm | seReg | sneReg => exact onlyChanges_skipIf _ _
  case ldImm | addImm | ldReg | orReg | andReg | xorReg | rnd | ldVxDt => exact onlyChanges_setV _ _ _
  case addReg | subReg | shr | subnReg | shl => exact onlyChanges_setVFlag _ _ _ _
  case ldI | ldFVx => exact onlyChanges_setI _ _
  case addIVx => exact onlyChanges_setIWrapped _ _
  case jpV0 => exact onlyChanges_setPcWrapped _ _
  case skp | sknp =>
    exact ((onlyChanges_reportIf _ _ _).mono (by simp only [mayWrite]; tauto)).trans (onlyChanges_skipIf _ _)
  case ldVxK =>
    exact ((onlyChanges_setWaitx _ _).mono (by simp only [mayWrite]; tauto)).trans
      ((onlyChanges_setMode _ _).mono (by simp only [mayWrite]; tauto))
  case ldDtVx => exact onlyChanges_setDt _ _
  case ldStVx => exact onlyChanges_setSt _ _
  case drw =>
    exact ((onlyChanges_drawSprite _ _ _ _).mono (by simp only [mayWrite]; tauto)).trans
      ((onlyChanges_setV _ _ _).mono (by simp only [mayWrite]; tauto))
  case ldBVx =>
    refine ((onlyChanges_memWrite _ _ _).mono ?_).trans (((onlyChanges_memWrite _ _ _).mono ?_).trans
      ((onlyChanges_memWrite _ _ _).mono ?_)) <;>
      (rintro p (hp | hp) <;> simp [mayWrite, hp])
  case ldMemVx x =>
    refine (onlyChanges_storeLoop s (regsUpTo x)).mono ?_
    rintro p (h | ⟨k, -, h⟩) <;> simp [mayWrite, h]
  case ldVxMem x => exact (onlyChanges_loadLoop s (regsUpTo x)).mono (by simp [mayWrite, mem_regsUpTo])

/-- The parts that every step writes, whatever it runs. -/
def everyStepWrites (p : Part) : Prop :=
  p = .pc ∨ p = .dt ∨ p = .kprev ∨ p = .causes ∨ p = .diagPc ∨ p = .diagOpcode ∨ p = .sched ∨ p = .stepNo

/-- A step leaves any other part alone, unless the instruction it runs may write it, or a key wait resolves and it is `V[WAITX]` or the mode. -/
theorem step_same_or {s t : State} (h : step s = .next t) (p : Part) (hp : ¬ everyStepWrites p) :
    p.Same s t ∨ (∃ i, s.runs i ∧ mayWrite i p) ∨
      (s.mode = .awaitKey ∧ (∃ k, s.newKey k) ∧ (p = .v s.waitx ∨ p = .mode)) := by
  unfold everyStepWrites at hp
  rcases step_cases h with ⟨hm, rfl⟩ | ⟨-, -, -, rfl⟩ | ⟨i, u, hr, he, rfl⟩
  · rcases awaitPoll_cases (s.beginDiag none) with ⟨-, hpoll⟩ | ⟨k, hk, hpoll⟩ <;> unfold State.awaitStep <;> rw [hpoll]
    · exact .inl ((onlyChanges_beginDiag s none p (by tauto)).trans (onlyChanges_endStep _ p (by tauto)))
    · by_cases hv : p = .v s.waitx ∨ p = .mode
      · exact .inr (.inr ⟨hm, ⟨k, hk⟩, hv⟩)
      · push Not at hv
        exact .inl ((onlyChanges_beginDiag s none p (by tauto)).trans (((onlyChanges_setV _ _ _ p hv.1).trans
          (onlyChanges_setMode _ _ p hv.2)).trans (onlyChanges_endStep _ p (by tauto))))
  · exact .inl ((onlyChanges_fetched s p (by tauto)).trans ((onlyChanges_reportIf _ _ _ p (by tauto)).trans
      (onlyChanges_endStep _ p (by tauto))))
  · by_cases hf : mayWrite i p
    · exact .inr (.inl ⟨i, hr, hf⟩)
    · exact .inl ((onlyChanges_fetched s p (by tauto)).trans ((exec_onlyChanges he p hf).trans (onlyChanges_endStep _ p (by tauto))))

/-- A step runs one instruction at most. -/
theorem runs_unique {s : State} {i j : Instr} (h : s.runs i) (h' : s.runs j) : i = j := by
  have e := h.2.2.symm.trans h'.2.2
  injection e

end Sys2Proof.Machine
end

