-- ==== Sys2Proof/Laws/PerInstr.lean ====
section
/-! SUPPORT. Statements made of every instruction as syntax, one lemma a constructor. -/

namespace Sys2Proof

/-- The high nibble of the pattern of an instruction (spec/30_encoding.md R104, R111). -/
def Instr.highNibble : Instr → BitVec 4
  | .sys .. => 0x0#4
  | .cls .. => 0x0#4
  | .ret .. => 0x0#4
  | .jp .. => 0x1#4
  | .call .. => 0x2#4
  | .seImm .. => 0x3#4
  | .sneImm .. => 0x4#4
  | .seReg .. => 0x5#4
  | .ldImm .. => 0x6#4
  | .addImm .. => 0x7#4
  | .ldReg .. => 0x8#4
  | .orReg .. => 0x8#4
  | .andReg .. => 0x8#4
  | .xorReg .. => 0x8#4
  | .addReg .. => 0x8#4
  | .subReg .. => 0x8#4
  | .shr .. => 0x8#4
  | .subnReg .. => 0x8#4
  | .shl .. => 0x8#4
  | .sneReg .. => 0x9#4
  | .ldI .. => 0xA#4
  | .jpV0 .. => 0xB#4
  | .rnd .. => 0xC#4
  | .drw .. => 0xD#4
  | .skp .. => 0xE#4
  | .sknp .. => 0xE#4
  | .ldVxDt .. => 0xF#4
  | .ldVxK .. => 0xF#4
  | .ldDtVx .. => 0xF#4
  | .ldStVx .. => 0xF#4
  | .addIVx .. => 0xF#4
  | .ldFVx .. => 0xF#4
  | .ldBVx .. => 0xF#4
  | .ldMemVx .. => 0xF#4
  | .ldVxMem .. => 0xF#4

/-- The encoder puts the family of an instruction into bits 15:12 (spec/30_encoding.md R101, R104). -/
def Laws.HighNibble.Statement (i : Instr) : Prop := fieldOp (encode i) = i.highNibble

theorem Laws.HighNibble.sys (nnn : BitVec 12) : Laws.HighNibble.Statement (.sys nnn) := by
  simp [Laws.HighNibble.Statement, encode, Instr.highNibble]

theorem Laws.HighNibble.cls : Laws.HighNibble.Statement .cls := by
  unfold Laws.HighNibble.Statement
  decide

theorem Laws.HighNibble.ret : Laws.HighNibble.Statement .ret := by
  unfold Laws.HighNibble.Statement
  decide

theorem Laws.HighNibble.jp (nnn : BitVec 12) : Laws.HighNibble.Statement (.jp nnn) := by
  simp [Laws.HighNibble.Statement, encode, Instr.highNibble]

theorem Laws.HighNibble.call (nnn : BitVec 12) : Laws.HighNibble.Statement (.call nnn) := by
  simp [Laws.HighNibble.Statement, encode, Instr.highNibble]

theorem Laws.HighNibble.seImm (x : VReg) (kk : Byte) : Laws.HighNibble.Statement (.seImm x kk) := by
  simp [Laws.HighNibble.Statement, encode, Instr.highNibble]

theorem Laws.HighNibble.sneImm (x : VReg) (kk : Byte) : Laws.HighNibble.Statement (.sneImm x kk) := by
  simp [Laws.HighNibble.Statement, encode, Instr.highNibble]

theorem Laws.HighNibble.seReg (x : VReg) (y : VReg) : Laws.HighNibble.Statement (.seReg x y) := by
  simp [Laws.HighNibble.Statement, encode, Instr.highNibble]

theorem Laws.HighNibble.ldImm (x : VReg) (kk : Byte) : Laws.HighNibble.Statement (.ldImm x kk) := by
  simp [Laws.HighNibble.Statement, encode, Instr.highNibble]

theorem Laws.HighNibble.addImm (x : VReg) (kk : Byte) : Laws.HighNibble.Statement (.addImm x kk) := by
  simp [Laws.HighNibble.Statement, encode, Instr.highNibble]

theorem Laws.HighNibble.ldReg (x : VReg) (y : VReg) : Laws.HighNibble.Statement (.ldReg x y) := by
  simp [Laws.HighNibble.Statement, encode, Instr.highNibble]

theorem Laws.HighNibble.orReg (x : VReg) (y : VReg) : Laws.HighNibble.Statement (.orReg x y) := by
  simp [Laws.HighNibble.Statement, encode, Instr.highNibble]

theorem Laws.HighNibble.andReg (x : VReg) (y : VReg) : Laws.HighNibble.Statement (.andReg x y) := by
  simp [Laws.HighNibble.Statement, encode, Instr.highNibble]

theorem Laws.HighNibble.xorReg (x : VReg) (y : VReg) : Laws.HighNibble.Statement (.xorReg x y) := by
  simp [Laws.HighNibble.Statement, encode, Instr.highNibble]

theorem Laws.HighNibble.addReg (x : VReg) (y : VReg) : Laws.HighNibble.Statement (.addReg x y) := by
  simp [Laws.HighNibble.Statement, encode, Instr.highNibble]

theorem Laws.HighNibble.subReg (x : VReg) (y : VReg) : Laws.HighNibble.Statement (.subReg x y) := by
  simp [Laws.HighNibble.Statement, encode, Instr.highNibble]

theorem Laws.HighNibble.shr (x : VReg) : Laws.HighNibble.Statement (.shr x) := by
  simp [Laws.HighNibble.Statement, encode, Instr.highNibble]

theorem Laws.HighNibble.subnReg (x : VReg) (y : VReg) : Laws.HighNibble.Statement (.subnReg x y) := by
  simp [Laws.HighNibble.Statement, encode, Instr.highNibble]

theorem Laws.HighNibble.shl (x : VReg) : Laws.HighNibble.Statement (.shl x) := by
  simp [Laws.HighNibble.Statement, encode, Instr.highNibble]

theorem Laws.HighNibble.sneReg (x : VReg) (y : VReg) : Laws.HighNibble.Statement (.sneReg x y) := by
  simp [Laws.HighNibble.Statement, encode, Instr.highNibble]

theorem Laws.HighNibble.ldI (nnn : BitVec 12) : Laws.HighNibble.Statement (.ldI nnn) := by
  simp [Laws.HighNibble.Statement, encode, Instr.highNibble]

theorem Laws.HighNibble.jpV0 (nnn : BitVec 12) : Laws.HighNibble.Statement (.jpV0 nnn) := by
  simp [Laws.HighNibble.Statement, encode, Instr.highNibble]

theorem Laws.HighNibble.rnd (x : VReg) (kk : Byte) : Laws.HighNibble.Statement (.rnd x kk) := by
  simp [Laws.HighNibble.Statement, encode, Instr.highNibble]

theorem Laws.HighNibble.drw (x : VReg) (y : VReg) (n : BitVec 4) : Laws.HighNibble.Statement (.drw x y n) := by
  simp [Laws.HighNibble.Statement, encode, Instr.highNibble]

theorem Laws.HighNibble.skp (x : VReg) : Laws.HighNibble.Statement (.skp x) := by
  simp [Laws.HighNibble.Statement, encode, Instr.highNibble]

theorem Laws.HighNibble.sknp (x : VReg) : Laws.HighNibble.Statement (.sknp x) := by
  simp [Laws.HighNibble.Statement, encode, Instr.highNibble]

theorem Laws.HighNibble.ldVxDt (x : VReg) : Laws.HighNibble.Statement (.ldVxDt x) := by
  simp [Laws.HighNibble.Statement, encode, Instr.highNibble]

theorem Laws.HighNibble.ldVxK (x : VReg) : Laws.HighNibble.Statement (.ldVxK x) := by
  simp [Laws.HighNibble.Statement, encode, Instr.highNibble]

theorem Laws.HighNibble.ldDtVx (x : VReg) : Laws.HighNibble.Statement (.ldDtVx x) := by
  simp [Laws.HighNibble.Statement, encode, Instr.highNibble]

theorem Laws.HighNibble.ldStVx (x : VReg) : Laws.HighNibble.Statement (.ldStVx x) := by
  simp [Laws.HighNibble.Statement, encode, Instr.highNibble]

theorem Laws.HighNibble.addIVx (x : VReg) : Laws.HighNibble.Statement (.addIVx x) := by
  simp [Laws.HighNibble.Statement, encode, Instr.highNibble]

theorem Laws.HighNibble.ldFVx (x : VReg) : Laws.HighNibble.Statement (.ldFVx x) := by
  simp [Laws.HighNibble.Statement, encode, Instr.highNibble]

theorem Laws.HighNibble.ldBVx (x : VReg) : Laws.HighNibble.Statement (.ldBVx x) := by
  simp [Laws.HighNibble.Statement, encode, Instr.highNibble]

theorem Laws.HighNibble.ldMemVx (x : VReg) : Laws.HighNibble.Statement (.ldMemVx x) := by
  simp [Laws.HighNibble.Statement, encode, Instr.highNibble]

theorem Laws.HighNibble.ldVxMem (x : VReg) : Laws.HighNibble.Statement (.ldVxMem x) := by
  simp [Laws.HighNibble.Statement, encode, Instr.highNibble]

end Sys2Proof
end

