-- ==== Sys2Proof/Laws/Run.lean ====
section
/-! SUPPORT. Steps one after another. -/

namespace Sys2Proof.Machine

variable (s : State)

theorem next?_of_step {t : State} (h : step s = .next t) : s.next? = some t := by
  unfold State.next?
  rw [h]

@[simp] theorem afterSteps_zero : s.afterSteps 0 = some s := rfl

theorem afterSteps_one : s.afterSteps 1 = s.next? := rfl

/-- One step more. -/
theorem afterSteps_succ {n : Nat} {t u : State} (h : s.afterSteps n = some t) (h' : step t = .next u) :
    s.afterSteps (n + 1) = some u := by
  unfold State.afterSteps
  rw [h]
  exact next?_of_step t h'

/-- What stands at a halt loop runs the jump to its own `PC`. -/
theorem runs_of_atHaltLoop (h : s.atHaltLoop = true) : s.runs (.jp (s.pc.setWidth 12)) := by
  simp only [State.atHaltLoop, Bool.and_eq_true, decide_eq_true_eq] at h
  obtain ⟨⟨hm, hop⟩, hpc⟩ := h
  refine ⟨hm, by simpa [State.pcInMemory] using hpc, ?_⟩
  rw [hop]
  simp [decodeWord, encode]

end Sys2Proof.Machine
end

