-- ==== Sys2Proof/Tests/Slice0.lean ====
section
/-! SUPPORT. The model's own tests. Expected results are those of spec/95_test_vectors.md (the vector's id stands in the comment) or of the rule
named there. The witnesses at the end meet the hypotheses of the statements in Certificates/Slice0/Obligations.lean. -/

open Sys2Proof Sys2Proof.Machine

namespace Sys2Proof.Tests

/-- No key, no tick, random byte 0: the inputs of a test vector that lists none. -/
def noInput : StepInput := ⟨0#16, false, 0#8⟩

/-- The state after reset changed by `f`, with opcode `w` where the next step fetches and the inputs of that step. -/
def start (w : Nat) (f : State → State) (inp : StepInput := noInput) : State :=
  { (f State.reset).withFetchWord 16 w with sched := [inp] }

/-- What one step leaves, looked at with `look`; none where the step stops. -/
def result {α : Type} (s : State) (look : State → α) : Option α := s.next?.map look

/-- A waiting state: `AwaitKey`, `PC` at 0x202, with the register, the last keys, the delay timer and the step's inputs given. -/
def waiting (x : VReg) (kprev : Word) (dt : Byte) (inp : StepInput) : State :=
  { ((((State.reset.setPc 0x202#16).setMode .awaitKey).setWaitx x).setKprev kprev).setDt dt with sched := [inp] }

/-- The state after reset with `n` slots of the stack in use, all of them `w`. -/
def stacked (n : Fin 17) (w : Word) (s : State) : State := { s with sp := n, stack := Vector.replicate 16 w }

/-- A state with one pixel on. -/
def lit (py : Fin 32) (px : Fin 64) (s : State) : State := s.setFb (s.fb.toggle py px)

/-! ## Well-formed terms -/

theorem test_wf_sys_0E0_refused : (Instr.sys 0x0E0#12).wellFormed = false := by decide
theorem test_wf_sys_0EE_refused : (Instr.sys 0x0EE#12).wellFormed = false := by decide
theorem test_wf_sys_others_accepted : (Instr.sys 0x0E1#12).wellFormed = true ∧ (Instr.sys 0xFFF#12).wellFormed = true := by decide

/-! ## Decoding: a word of every row, written bit by bit from the patterns of spec/30_encoding.md section 3 (R111) -/

theorem test_decode_sys : decodeTableWord 16 0b0000000100100011 = some (.sys 0x123#12) := by decide
theorem test_decode_cls : decodeTableWord 16 0b0000000011100000 = some (.cls) := by decide
theorem test_decode_ret : decodeTableWord 16 0b0000000011101110 = some (.ret) := by decide
theorem test_decode_jp : decodeTableWord 16 0b0001101010111100 = some (.jp 0xABC#12) := by decide
theorem test_decode_call : decodeTableWord 16 0b0010001000010000 = some (.call 0x210#12) := by decide
theorem test_decode_seImm : decodeTableWord 16 0b0011001101000010 = some (.seImm 3 0x42#8) := by decide
theorem test_decode_sneImm : decodeTableWord 16 0b0100111100000001 = some (.sneImm 15 0x01#8) := by decide
theorem test_decode_seReg : decodeTableWord 16 0b0101000100100011 = some (.seReg 1 2) := by decide
theorem test_decode_ldImm : decodeTableWord 16 0b0110101001011100 = some (.ldImm 10 0x5C#8) := by decide
theorem test_decode_addImm : decodeTableWord 16 0b0111000100000001 = some (.addImm 1 0x01#8) := by decide
theorem test_decode_ldReg : decodeTableWord 16 0b1000000101010000 = some (.ldReg 1 5) := by decide
theorem test_decode_orReg : decodeTableWord 16 0b1000000100100001 = some (.orReg 1 2) := by decide
theorem test_decode_andReg : decodeTableWord 16 0b1000000100100010 = some (.andReg 1 2) := by decide
theorem test_decode_xorReg : decodeTableWord 16 0b1000000100010011 = some (.xorReg 1 1) := by decide
theorem test_decode_addReg : decodeTableWord 16 0b1000111100100100 = some (.addReg 15 2) := by decide
theorem test_decode_subReg : decodeTableWord 16 0b1000111100010101 = some (.subReg 15 1) := by decide
theorem test_decode_shr : decodeTableWord 16 0b1000010001110110 = some (.shr 4) := by decide
theorem test_decode_subnReg : decodeTableWord 16 0b1000000100100111 = some (.subnReg 1 2) := by decide
theorem test_decode_shl : decodeTableWord 16 0b1000111111111110 = some (.shl 15) := by decide
theorem test_decode_sneReg : decodeTableWord 16 0b1001000100101111 = some (.sneReg 1 2) := by decide
theorem test_decode_ldI : decodeTableWord 16 0b1010111111111111 = some (.ldI 0xFFF#12) := by decide
theorem test_decode_jpV0 : decodeTableWord 16 0b1011001100000000 = some (.jpV0 0x300#12) := by decide
theorem test_decode_rnd : decodeTableWord 16 0b1100001100001111 = some (.rnd 3 0x0F#8) := by decide
theorem test_decode_drw : decodeTableWord 16 0b1101001000110101 = some (.drw 2 3 5#4) := by decide
theorem test_decode_skp : decodeTableWord 16 0b1110000110011110 = some (.skp 1) := by decide
theorem test_decode_sknp : decodeTableWord 16 0b1110000110100001 = some (.sknp 1) := by decide
theorem test_decode_ldVxDt : decodeTableWord 16 0b1111000100000111 = some (.ldVxDt 1) := by decide
theorem test_decode_ldVxK : decodeTableWord 16 0b1111001100001010 = some (.ldVxK 3) := by decide
theorem test_decode_ldDtVx : decodeTableWord 16 0b1111000000010101 = some (.ldDtVx 0) := by decide
theorem test_decode_ldStVx : decodeTableWord 16 0b1111001000011000 = some (.ldStVx 2) := by decide
theorem test_decode_addIVx : decodeTableWord 16 0b1111001000011110 = some (.addIVx 2) := by decide
theorem test_decode_ldFVx : decodeTableWord 16 0b1111001100101001 = some (.ldFVx 3) := by decide
theorem test_decode_ldBVx : decodeTableWord 16 0b1111010100110011 = some (.ldBVx 5) := by decide
theorem test_decode_ldMemVx : decodeTableWord 16 0b1111001001010101 = some (.ldMemVx 2) := by decide
theorem test_decode_ldVxMem : decodeTableWord 16 0b1111111101100101 = some (.ldVxMem 15) := by decide
theorem test_decode_unknown_alu : decodeWord 0x8128#16 = .rejected (.unknownAlu 0x8#4) := by decide
theorem test_decode_unknown_key : decodeWord 0xE19F#16 = .rejected (.unknownKey 0x9F#8) := by decide
theorem test_decode_unknown_misc : decodeWord 0xF0FF#16 = .rejected (.unknownMisc 0xFF#8) := by decide
theorem test_decode_family_zero_full_word : decodeWord 0x00E1#16 = .instr (.sys 0x0E1#12) := by decide
theorem test_decode_short_bytes : (decodeBytes [0x60#8]).1 = .rejected .truncated := by decide

/-- One word of each row. -/
def rowWords : List Nat :=
  [0x0123, 0x00E0, 0x00EE, 0x1ABC, 0x2210, 0x3342, 0x4F01, 0x5123, 0x6A5C, 0x7101, 0x8150, 0x8121,
   0x8122, 0x8113, 0x8F24, 0x8F15, 0x8476, 0x8127, 0x8FFE, 0x912F, 0xAFFF, 0xB300, 0xC30F, 0xD235,
   0xE19E, 0xE1A1, 0xF107, 0xF30A, 0xF015, 0xF218, 0xF21E, 0xF329, 0xF533, 0xF255, 0xFF65]

/-- Every row runs as the first instruction after reset, whatever the inputs of that step. -/
theorem test_every_row_runs_after_reset :
    (rowWords.all fun w => (result (State.reset.withFetchWord 16 w) fun _ => ()).isSome) = true := by decide

/-! ## Steps -/

/-- T-CF2: a family-0 word that is neither 00E0 nor 00EE does nothing. -/
theorem test_sys : result (start 0x00E1 (fun s => s)) (fun t => (t.pc, t.diag.causes)) = some (0x202#16, 0#4) := by decide

/-- T-CD2: the advance from 0xFFE wraps and reports. -/
theorem test_fetch_wraps_at_top : result (start 0x0000 (fun s => s.setPc 0xFFE#16)) (fun t => (t.pc, t.diag.causes)) = some (0x000#16, 0x8#4) := by decide

/-- T-CD3: the second byte of a fetch at 0xFFF is the byte at 0x000. -/
theorem test_fetch_second_byte_wraps : result ({ (State.reset.setPc 0xFFF#16).memWrite 0xFFF 0x60#8 with sched := [noInput] }) (fun t => (t.getV 0, t.pc, t.diag.causes, t.diag.opcode)) = some (0xF0#8, 0x001#16, 0x8#4, some 0x60F0#16) := by decide

/-- T-CD4: an odd PC fetches as any other. -/
theorem test_odd_pc : result (start 0x6107 (fun s => s.setPc 0x201#16)) (fun t => (t.getV 1, t.pc, t.diag.causes)) = some (0x07#8, 0x203#16, 0#4) := by decide

/-- T-CD1: the record of a step. -/
theorem test_diag_record : result (start 0x1234 (fun s => s)) (fun t => (t.diag.pc, t.diag.opcode, t.pc)) = some (0x200#12, some 0x1234#16, 0x234#16) := by decide

/-- T-DR7. -/
theorem test_cls : result (start 0x00E0 (lit 31 63)) (fun t => (t.fbPort 31 63, t.getV 15)) = some (false, 0#8) := by decide

/-- T-CF4: the slot is kept. -/
theorem test_ret : result (start 0x00EE (fun s => stacked 1 0x206#16 (s.setPc 0x212#16))) (fun t => (t.pc, t.sp, t.slot 0, t.diag.causes)) = some (0x206#16, 0, 0x206#16, 0#4) := by decide

/-- T-CF3. -/
theorem test_ret_empty_stack : result (start 0x00EE (fun s => s)) (fun t => (t.pc, t.sp, t.diag.causes)) = some (0x202#16, 0, 0x4#4) := by decide

/-- T-CF5. -/
theorem test_jp_halt_loop : result (start 0x1200 (fun s => s)) (fun t => (t.pc, t.atHaltLoop)) = some (0x200#16, true) := by decide

/-- T-CF6. -/
theorem test_call : result (start 0x2210 (fun s => s.setPc 0x204#16)) (fun t => (t.pc, t.sp, t.slot 0)) = some (0x210#16, 1, 0x206#16) := by decide

/-- T-CF7. -/
theorem test_call_full_stack : result (start 0x2400 (fun s => stacked 16 0x111#16 (s.setPc 0x300#16))) (fun t => (t.pc, t.sp, t.slot 15, t.diag.causes)) = some (0x302#16, 16, 0x111#16, 0x2#4) := by decide

/-- T-CF9. -/
theorem test_jpV0 : result (start 0xB300 (fun s => s.setV 0 0x10#8)) (fun t => (t.pc, t.diag.causes)) = some (0x310#16, 0#4) := by decide

/-- T-CF10. -/
theorem test_jpV0_wraps : result (start 0xBFFF (fun s => s.setV 0 0xFF#8)) (fun t => (t.pc, t.diag.causes)) = some (0x0FE#16, 0x8#4) := by decide

/-- T-SK1. -/
theorem test_seImm_taken : result (start 0x3342 (fun s => s.setV 3 0x42#8)) (fun t => (t.pc)) = some (0x204#16) := by decide

/-- T-SK7. -/
theorem test_seImm_wraps : result (start 0x3000 (fun s => s.setPc 0xFFC#16)) (fun t => (t.pc, t.diag.causes)) = some (0x000#16, 0x8#4) := by decide

/-- T-SK3. -/
theorem test_sneImm_not_taken : result (start 0x4F01 (fun s => s.setV 15 0x01#8)) (fun t => (t.pc)) = some (0x202#16) := by decide

/-- T-SK4. -/
theorem test_seReg_low_nibble_ignored : result (start 0x5123 (fun s => ((s.setPc 0x300#16).setV 1 7#8).setV 2 7#8)) (fun t => (t.pc, t.diag.causes)) = some (0x304#16, 0#4) := by decide

/-- T-SK5. -/
theorem test_sneReg_taken : result (start 0x912F (fun s => ((s.setPc 0x300#16).setV 1 7#8).setV 2 8#8)) (fun t => (t.pc)) = some (0x304#16) := by decide

/-- T-SK6. -/
theorem test_sneReg_not_taken : result (start 0x9120 (fun s => ((s.setPc 0x300#16).setV 1 7#8).setV 2 7#8)) (fun t => (t.pc)) = some (0x302#16) := by decide

/-- T-AL1. -/
theorem test_ldImm : result (start 0x6A5C (fun s => s)) (fun t => (t.getV 10)) = some (0x5C#8) := by decide

/-- T-AL2. -/
theorem test_addImm_no_flag : result (start 0x7101 (fun s => (s.setV 1 0xFF#8).setV 15 0x55#8)) (fun t => (t.getV 1, t.getV 15)) = some (0x00#8, 0x55#8) := by decide

/-- T-AL3. -/
theorem test_addImm_on_vf : result (start 0x7F01 (fun s => s.setV 15 0x10#8)) (fun t => (t.getV 15)) = some (0x11#8) := by decide

/-- T-AL4. -/
theorem test_ldReg : result (start 0x8150 (fun s => s.setV 5 0x33#8)) (fun t => (t.getV 1)) = some (0x33#8) := by decide

/-- T-AL5. -/
theorem test_orReg_keeps_vf : result (start 0x8121 (fun s => ((s.setV 1 0x0F#8).setV 2 0xF0#8).setV 15 0x77#8)) (fun t => (t.getV 1, t.getV 15)) = some (0xFF#8, 0x77#8) := by decide

/-- T-AL6. -/
theorem test_andReg : result (start 0x8122 (fun s => (s.setV 1 0x3C#8).setV 2 0x0F#8)) (fun t => (t.getV 1)) = some (0x0C#8) := by decide

/-- T-AL7. -/
theorem test_xorReg_same_register : result (start 0x8113 (fun s => s.setV 1 0x3C#8)) (fun t => (t.getV 1)) = some (0x00#8) := by decide

/-- T-AL8. -/
theorem test_addReg_carry : result (start 0x8124 (fun s => (s.setV 1 0xFF#8).setV 2 0x01#8)) (fun t => (t.getV 1, t.getV 15)) = some (0x00#8, 1#8) := by decide

/-- T-AL9. -/
theorem test_addReg_into_vf : result (start 0x8F24 (fun s => (s.setV 15 0x80#8).setV 2 0x80#8)) (fun t => (t.getV 15)) = some (1#8) := by decide

/-- T-AL11. -/
theorem test_subReg_equal : result (start 0x8125 (fun s => (s.setV 1 0x10#8).setV 2 0x10#8)) (fun t => (t.getV 1, t.getV 15)) = some (0x00#8, 0#8) := by decide

/-- T-AL12. -/
theorem test_subReg_borrow : result (start 0x8125 (fun s => s.setV 2 0x01#8)) (fun t => (t.getV 1, t.getV 15)) = some (0xFF#8, 0#8) := by decide

/-- T-AL16. -/
theorem test_shr_ignores_vy : result (start 0x8476 (fun s => (s.setV 4 0x05#8).setV 7 0xFF#8)) (fun t => (t.getV 4, t.getV 15, t.getV 7)) = some (0x02#8, 1#8, 0xFF#8) := by decide

/-- T-AL15. -/
theorem test_shr_of_vf : result (start 0x8FF6 (fun s => s.setV 15 0x02#8)) (fun t => (t.getV 15)) = some (0#8) := by decide

/-- T-AL17. -/
theorem test_subnReg : result (start 0x8127 (fun s => (s.setV 1 0x0A#8).setV 2 0x03#8)) (fun t => (t.getV 1, t.getV 15)) = some (0xF9#8, 0#8) := by decide

/-- T-AL19. -/
theorem test_shl : result (start 0x840E (fun s => s.setV 4 0x80#8)) (fun t => (t.getV 4, t.getV 15)) = some (0x00#8, 1#8) := by decide

/-- T-AL20. -/
theorem test_shl_of_vf : result (start 0x8FFE (fun s => s.setV 15 0x40#8)) (fun t => (t.getV 15)) = some (0#8) := by decide

/-- T-AL21. -/
theorem test_rnd : result (start 0xC30F (fun s => s) ⟨0#16, false, 0xAB#8⟩) (fun t => (t.getV 3)) = some (0x0B#8) := by decide

/-- T-AL23. -/
theorem test_unknown_opcode : result (start 0x8128 (fun s => (s.setV 1 1#8).setV 2 2#8)) (fun t => (t.pc, t.getV 1, t.diag.causes)) = some (0x202#16, 1#8, 0x1#4) := by decide

/-- T-IM1. -/
theorem test_ldI : result (start 0xAFFF (fun s => s)) (fun t => (t.i, t.diag.causes)) = some (0xFFF#16, 0#4) := by decide

/-- T-IM2. -/
theorem test_addIVx : result (start 0xF21E (fun s => (s.setI 0x300#16).setV 2 0x20#8)) (fun t => (t.i, t.getV 15)) = some (0x320#16, 0#8) := by decide

/-- T-IM3. -/
theorem test_addIVx_wraps : result (start 0xF21E (fun s => (s.setI 0xFF0#16).setV 2 0x20#8)) (fun t => (t.i, t.diag.causes)) = some (0x010#16, 0x8#4) := by decide

/-- V-S6. -/
theorem test_ldFVx_digit : result (start 0xF329 (fun s => s.setV 3 0x0A#8)) (fun t => (t.i, t.byte 0x032, t.byte 0x036)) = some (0x032#16, 0xF0#8, 0x90#8) := by decide

/-- T-IM4. -/
theorem test_ldFVx_whole_byte : result (start 0xF329 (fun s => s.setV 3 0xFF#8)) (fun t => (t.i, t.diag.causes)) = some (0x4FB#16, 0#4) := by decide

/-- V-S5. -/
theorem test_ldBVx : result (start 0xF533 (fun s => (s.setV 5 157#8).setI 0x300#16)) (fun t => (t.byte 0x300, t.byte 0x301, t.byte 0x302, t.i)) = some (1#8, 5#8, 7#8, 0x300#16) := by decide

/-- T-IM7. -/
theorem test_ldBVx_wraps : result (start 0xF033 (fun s => (s.setV 0 123#8).setI 0xFFF#16)) (fun t => (t.byte 0xFFF, t.byte 0, t.byte 1, t.diag.causes)) = some (1#8, 2#8, 3#8, 0x8#4) := by decide

/-- T-IM9. -/
theorem test_ldMemVx_wraps : result (start 0xF255 (fun s => (((s.setV 0 1#8).setV 1 2#8).setV 2 3#8).setI 0xFFE#16)) (fun t => (t.byte 0xFFE, t.byte 0xFFF, t.byte 0, t.i, t.diag.causes)) = some (1#8, 2#8, 3#8, 0xFFE#16, 0x8#4) := by decide

/-- T-IM8. -/
theorem test_ldMemVx_one : result (start 0xF055 (fun s => (s.setV 0 0xAA#8).setI 0x400#16)) (fun t => (t.byte 0x400, t.byte 0x401)) = some (0xAA#8, 0#8) := by decide

/-- T-IM11. -/
theorem test_ldVxMem_one : result (start 0xF065 (fun s => ((s.memWrite 0x300 0x77#8).setV 1 0x55#8).setI 0x300#16)) (fun t => (t.getV 0, t.getV 1, t.i)) = some (0x77#8, 0x55#8, 0x300#16) := by decide

/-- T-IM10, over the font bytes at 0x000 in place of 00 01 .. 0F: VF is loaded as any other register. -/
theorem test_ldVxMem_all : result (start 0xFF65 (fun s => s)) (fun t => (t.getV 0, t.getV 5, t.getV 15)) = some (0xF0#8, 0x20#8, 0xF0#8) := by decide

/-- T-DR3. -/
theorem test_drw_collision : result (start 0xD121 (fun s => lit 0 0 ((s.memWrite 0x400 0x80#8).setI 0x400#16))) (fun t => (t.fbPort 0 0, t.getV 15)) = some (false, 1#8) := by decide

/-- T-DR4. -/
theorem test_drw_columns_wrap : result (start 0xD121 (fun s => ((s.memWrite 0x400 0xFF#8).setI 0x400#16).setV 1 60#8)) (fun t => (t.fbPort 0 63, t.fbPort 0 3, t.fbPort 0 4, t.fbPort 0 59)) = some (true, true, false, false) := by decide

/-- T-KT1. -/
theorem test_skp_pressed : result (start 0xE19E (fun s => s.setV 1 5#8) ⟨0x0020#16, false, 0#8⟩) (fun t => (t.pc)) = some (0x204#16) := by decide

/-- T-KT3. -/
theorem test_skp_low_nibble : result (start 0xE19E (fun s => s.setV 1 0x15#8) ⟨0x0020#16, false, 0#8⟩) (fun t => (t.pc, t.diag.causes)) = some (0x204#16, 0x8#4) := by decide

/-- T-KT4, V-S8. -/
theorem test_sknp_pressed : result (start 0xE1A1 (fun s => s.setV 1 3#8) ⟨0x0008#16, false, 0#8⟩) (fun t => (t.pc)) = some (0x202#16) := by decide

/-- V-S8. -/
theorem test_sknp_released : result (start 0xE1A1 (fun s => s.setV 1 3#8)) (fun t => (t.pc)) = some (0x204#16) := by decide

/-- T-KT6. -/
theorem test_ldVxDt_before_decay : result (start 0xF107 (fun s => s.setDt 7#8) ⟨0#16, true, 0#8⟩) (fun t => (t.getV 1, t.dt)) = some (7#8, 6#8) := by decide

/-- T-KT7. -/
theorem test_ldDtVx_decays_at_once : result (start 0xF015 (fun s => s.setV 0 5#8) ⟨0#16, true, 0#8⟩) (fun t => (t.dt)) = some (4#8) := by decide

/-- T-KT8. -/
theorem test_ldDtVx_without_tick : result (start 0xF015 (fun s => s.setV 0 5#8)) (fun t => (t.dt)) = some (5#8) := by decide

/-- T-KT9. -/
theorem test_ldStVx_does_not_decay : result (start 0xF218 (fun s => s.setV 2 0x3C#8) ⟨0#16, true, 0#8⟩) (fun t => (t.st)) = some (0x3C#8) := by decide

/-- T-KT10. -/
theorem test_ldVxK : result (start 0xF30A (fun s => s)) (fun t => (t.mode, t.waitx, t.pc, t.kprev)) = some (Mode.awaitKey, 3, 0x202#16, 0#16) := by decide

/-- T-CD7. -/
theorem test_await_new_key_not_the_held_one : result (waiting 2 0x0001#16 0#8 ⟨0x0003#16, false, 0#8⟩) (fun t => (t.getV 2, t.mode, t.kprev, t.pc)) = some (1#8, Mode.running, 0x0003#16, 0x202#16) := by decide

/-- T-CD8. -/
theorem test_await_least_key : result (waiting 4 0#16 0#8 ⟨0x8410#16, false, 0#8⟩) (fun t => (t.getV 4)) = some (4#8) := by decide

/-- T-CD5. -/
theorem test_timer_not_below_zero : result (start 0x1200 (fun s => s) ⟨0#16, true, 0#8⟩) (fun t => (t.dt)) = some (0#8) := by decide

/-! ## Witnesses: each meets all the hypotheses of the statement, or of the clause of it, that it is named after -/

/-- A state whose next step runs `i`: its opcode stands at `PC`. -/
def running (i : Instr) (f : State → State) (inp : StepInput := noInput) : State := start (encode i).toNat f inp

/-- The premise of `DecodeOfEncodeIsTheInstruction`. -/
theorem witness_wellFormed : (Instr.sys 0x123#12).wellFormed = true ∧ (Instr.drw 15 15 15#4).wellFormed = true := by decide

/-- `EncodeOfDecodeKeepsTheUsedBits`: a word with ignored bits, and one without. -/
theorem witness_decodes :
    decodeWord 0x5123#16 = .instr (.seReg 1 2) ∧ decodeWord 0x84F6#16 = .instr (.shr 4) ∧ decodeWord 0xDFFF#16 = .instr (.drw 15 15 15#4) := by
  decide

/-- `UnknownSubOperationsAreRejected`: each family, at a listed and at an unlisted sub-operation. -/
theorem witness_subOperations :
    (fieldOp 0x8127#16 = 0x8#4 ∧ fieldOp 0x8128#16 = 0x8#4) ∧ (fieldOp 0xE19E#16 = 0xE#4 ∧ fieldOp 0xE19F#16 = 0xE#4) ∧
    (fieldOp 0xF165#16 = 0xF#4 ∧ fieldOp 0xF166#16 = 0xF#4) ∧ fieldOp 0x0000#16 ∉ [0x8#4, 0xE#4, 0xF#4] := by
  decide

/-- `HighNibbleAloneSelectsTheseFamilies`: two words of one family, and a word of each ignored low nibble. -/
theorem witness_highNibble :
    (fieldOp 0x5120#16 = fieldOp 0x5FFF#16 ∧
      fieldOp 0x5120#16 ∈ [0x1#4, 0x2#4, 0x3#4, 0x4#4, 0x5#4, 0x6#4, 0x7#4, 0x9#4, 0xA#4, 0xB#4, 0xC#4, 0xD#4]) ∧
    fieldOp 0x512F#16 = 0x5#4 ∧ fieldOp 0x912F#16 = 0x9#4 := by
  decide

/-- `StepRunsTheDecodedInstruction`: at the lowest and at the highest `PC`. -/
theorem witness_step_decodes :
    (let s := running (.ldImm 10 0x5C#8) fun s => s.setPc 0#16
     s.mode = .running ∧ s.pc.toNat ≤ 0xFFF ∧
      decodeBytes [s.byte s.pc.toNat, s.byte ((s.pc.toNat + 1) % 0x1000)] = (.instr (.ldImm 10 0x5C#8), []) ∧
      (Instr.ldImm 10 0x5C#8).wellFormed = true) ∧
    (let s := running (.ldImm 10 0x5C#8) fun s => s.setPc 0xFFF#16
     s.mode = .running ∧ s.pc.toNat ≤ 0xFFF ∧
      decodeBytes [s.byte s.pc.toNat, s.byte ((s.pc.toNat + 1) % 0x1000)] = (.instr (.ldImm 10 0x5C#8), []) ∧
      (Instr.ldImm 10 0x5C#8).wellFormed = true) := by
  decide

/-- `UnknownOpcodeIsAReportedNoOp`, where the advance wraps and where it does not. -/
theorem witness_unknown :
    (let s := start 0x8128 fun s => s.setPc 0x200#16
     s.mode = .running ∧ s.pc.toNat ≤ 0xFFF ∧ decodeWord s.opcodeAtPc = .rejected (.unknownAlu 8#4)) ∧
    (let s := start 0xFFFF fun s => s.setPc 0xFFE#16
     s.mode = .running ∧ s.pc.toNat ≤ 0xFFF ∧ decodeWord s.opcodeAtPc = .rejected (.unknownMisc 0xFF#8)) := by
  decide

/-- `AwaitKeyWithoutANewKeyOnlyDecaysAndLatches`: no key, and only a key that was held before. -/
theorem witness_await_no_newKey :
    ((waiting 0 0#16 3#8 noInput).mode = .awaitKey ∧ ∀ k : Key, ¬ (waiting 0 0#16 3#8 noInput).newKey k) ∧
    ((waiting 0 0x8000#16 0#8 ⟨0x8000#16, true, 0#8⟩).mode = .awaitKey ∧
      ∀ k : Key, ¬ (waiting 0 0x8000#16 0#8 ⟨0x8000#16, true, 0#8⟩).newKey k) := by
  simp only [State.newKey]
  decide

/-- `AwaitKeyResolvesWithTheLeastNewKey`: the least and the greatest key. -/
theorem witness_await_newKey :
    (let s := waiting 15 0#16 3#8 ⟨0x8001#16, true, 0#8⟩
     s.mode = .awaitKey ∧ s.newKey 0 ∧ ∀ j : Key, j.val < (0 : Key).val → ¬ s.newKey j) ∧
    (let s := waiting 2 0x7FFF#16 3#8 ⟨0xFFFF#16, false, 0#8⟩
     s.mode = .awaitKey ∧ s.newKey 15 ∧ ∀ j : Key, j.val < (15 : Key).val → ¬ s.newKey j) := by
  simp only [State.newKey]
  decide

/-- `FamilyZeroIsFullWordAndSysIsSilent`: a word for each clause. -/
theorem witness_familyZero :
    fieldOp 0x00E0#16 = 0x0#4 ∧ fieldOp 0x00EE#16 = 0x0#4 ∧ fieldOp 0x00E1#16 = 0x0#4 ∧ fieldOp 0x0FFF#16 = 0x0#4 := by
  decide

/-- The decoding clauses of the statements on families 0x1 to 0xD: a word of each. -/
theorem witness_families :
    fieldOp 0x1FFF#16 = 0x1#4 ∧ fieldOp 0x2FFF#16 = 0x2#4 ∧ fieldOp 0x3FFF#16 = 0x3#4 ∧ fieldOp 0x4FFF#16 = 0x4#4 ∧
    fieldOp 0x5FFF#16 = 0x5#4 ∧ fieldOp 0x6FFF#16 = 0x6#4 ∧ fieldOp 0x7FFF#16 = 0x7#4 ∧ fieldOp 0x9FFF#16 = 0x9#4 ∧
    fieldOp 0xAFFF#16 = 0xA#4 ∧ fieldOp 0xBFFF#16 = 0xB#4 ∧ fieldOp 0xCFFF#16 = 0xC#4 ∧ fieldOp 0xDFFF#16 = 0xD#4 := by
  decide

/-- The decoding clauses of the statements on family 0x8. -/
theorem witness_family8 :
    fieldOp 0x8FF0#16 = 0x8#4 ∧ fieldN 0x8FF0#16 = 0x0#4 ∧ fieldN 0x8FF1#16 = 0x1#4 ∧ fieldN 0x8FF2#16 = 0x2#4 ∧
    fieldN 0x8FF3#16 = 0x3#4 ∧ fieldN 0x8FF4#16 = 0x4#4 ∧ fieldN 0x8FF5#16 = 0x5#4 ∧ fieldN 0x8FF6#16 = 0x6#4 ∧
    fieldN 0x8FF7#16 = 0x7#4 ∧ fieldN 0x8FFE#16 = 0xE#4 ∧ fieldOp 0x8FFE#16 = 0x8#4 := by
  decide

/-- The decoding clauses of the statements on families 0xE and 0xF. -/
theorem witness_familiesEF :
    (fieldOp 0xEF9E#16 = 0xE#4 ∧ fieldKk 0xEF9E#16 = 0x9E#8) ∧ (fieldOp 0xEFA1#16 = 0xE#4 ∧ fieldKk 0xEFA1#16 = 0xA1#8) ∧
    (fieldOp 0xFF07#16 = 0xF#4 ∧ fieldKk 0xFF07#16 = 0x07#8) ∧ (fieldOp 0xFF0A#16 = 0xF#4 ∧ fieldKk 0xFF0A#16 = 0x0A#8) ∧
    (fieldOp 0xFF15#16 = 0xF#4 ∧ fieldKk 0xFF15#16 = 0x15#8) ∧ (fieldOp 0xFF18#16 = 0xF#4 ∧ fieldKk 0xFF18#16 = 0x18#8) ∧
    (fieldOp 0xFF1E#16 = 0xF#4 ∧ fieldKk 0xFF1E#16 = 0x1E#8) ∧ (fieldOp 0xFF29#16 = 0xF#4 ∧ fieldKk 0xFF29#16 = 0x29#8) ∧
    (fieldOp 0xFF33#16 = 0xF#4 ∧ fieldKk 0xFF33#16 = 0x33#8) ∧ (fieldOp 0xFF55#16 = 0xF#4 ∧ fieldKk 0xFF55#16 = 0x55#8) ∧
    (fieldOp 0xFF65#16 = 0xF#4 ∧ fieldKk 0xFF65#16 = 0x65#8) := by
  decide

/-- `CallPushesTheReturnAddressAndJumps` and `ReturnPopsTheReturnAddress`: the stack empty, with one free slot, and full. -/
theorem witness_stack :
    State.reset.sp.val < 16 ∧ (stacked 15 0x206#16 State.reset).sp.val < 16 ∧ (stacked 16 0x206#16 State.reset).sp.val = 16 ∧
    0 < (stacked 1 0x206#16 State.reset).sp.val ∧ 0 < (stacked 16 0x206#16 State.reset).sp.val ∧ State.reset.sp.val = 0 := by
  decide

/-- `ReturnResumesAfterTheMatchingCall`: the state the call left, with another register since. -/
theorem witness_call_return :
    ∃ t t' : State, State.reset.sp.val < 16 ∧ exec (.call 0x300#12) State.reset = .next t ∧ t'.sp = t.sp ∧
      (∀ j, t'.slot j = t.slot j) ∧ t'.getV 0 ≠ t.getV 0 :=
  ⟨{ State.reset with pc := 0x300#16, sp := 1, stack := State.reset.stack.set 0 0x200#16 },
    { State.reset with
      pc := 0x300#16, sp := 1, stack := State.reset.stack.set 0 0x200#16, v := State.reset.v.set 0 7#8 },
    by decide, rfl, rfl, fun _ => rfl, by decide⟩

/-- `RegisterSkipsCompareAndSkip`: the condition of each skip met and not met, where the skip wraps and where it does not. -/
theorem witness_skips :
    (State.reset.getV 3).toNat = (0#8).toNat ∧ (State.reset.getV 3).toNat ≠ (1#8).toNat ∧
    (State.reset.getV 1).toNat = (State.reset.getV 2).toNat ∧
    ((State.reset.setV 1 7#8).getV 1).toNat ≠ ((State.reset.setV 1 7#8).getV 2).toNat ∧
    ¬ 0xFFF < State.reset.pc.toNat + 2 ∧ 0xFFF < (State.reset.setPc 0xFFE#16).pc.toNat + 2 := by
  decide

/-- `KeySkipsTestTheKeyLevel`: the key pressed and not pressed, and `Vx` above 0xF. -/
theorem witness_keySkips :
    ((15 : Key).val = ((State.reset.setV 1 15#8).getV 1).toNat % 16) ∧
    ((5 : Key).val = ((State.reset.setV 1 0xF5#8).getV 1).toNat % 16 ∧ 0xF < ((State.reset.setV 1 0xF5#8).getV 1).toNat) ∧
    (start 0xE19E (fun s => s) ⟨0x0020#16, false, 0#8⟩).input.keys.getLsbD (5 : Key).val = true ∧
    (start 0xE19E (fun s => s) noInput).input.keys.getLsbD (5 : Key).val = false := by
  decide

/-- The clause `x ≠ 15` of the flag writers. -/
theorem witness_data_register : (14 : VReg) ≠ 15 := by decide

/-- `BcdStoresThreeDigits`, `BlockStoreWritesV0ToVx`: a memory in canonical form, with and without an entry, and a register within the list. -/
theorem witness_wf_memory :
    Memory.wf State.reset.mem = true ∧ Memory.wf (State.reset.memWrite 0xFFF 0x77#8).mem = true ∧
    (State.reset.memWrite 0xFFF 0x77#8).mem = [(0xFFF, 0x77#8)] ∧ (15 : VReg).val ≤ (15 : VReg).val := by
  decide

/-- `StoredRegistersAreFetchedAsAnOpcode`, at the last pair of registers of `Fx55`. -/
theorem witness_stored_fetch :
    ∃ s t : State, Memory.wf s.mem = true ∧ exec (.ldMemVx 15) s = .next t ∧ (15 : VReg).val = (14 : VReg).val + 1 ∧
      (15 : VReg).val ≤ (15 : VReg).val :=
  ⟨State.reset, _, rfl, rfl, by decide, by decide⟩

/-- The state of T-DR3 with `V1 = V2 = 0`: one sprite pixel at 0x400, the pixel under it on. -/
def drawState (on : Bool) : State := bif on then lit 0 0 ((State.reset.memWrite 0x400 0x80#8).setI 0x400#16)
  else (State.reset.memWrite 0x400 0x80#8).setI 0x400#16

/-- `DrawXorsTheSpriteAndFlagsTheCollision`: a collision, and none. -/
theorem witness_collision :
    (∃ py px, (drawState true).spriteBit 1 2 1#4 py px = true ∧ (drawState true).fbPort py px = true) ∧
    ¬ ∃ py px, State.reset.spriteBit 1 2 0#4 py px = true ∧ State.reset.fbPort py px = true := by
  refine ⟨⟨0, 0, by decide, by decide⟩, ?_⟩
  rintro ⟨py, px, h, _⟩
  simp [State.spriteBit] at h

/-- `SecondIdenticalDrawRestoresTheFramebuffer`. -/
theorem witness_double_draw :
    ∃ s t : State, exec (.drw 1 2 1#4) s = .next t ∧ (t.getV 1).toNat % 64 = (s.getV 1).toNat % 64 ∧
      (t.getV 2).toNat % 32 = (s.getV 2).toNat % 32 :=
  ⟨drawState false, _, rfl, rfl, rfl⟩

/-- The next step of `running i f inp` runs `i`: the premise `runs` of the whole-machine statements, where the instruction changes the part
that the statement is about. -/
theorem witness_runs :
    (running (.ldDtVx 0) fun s => s).runs (.ldDtVx 0) ∧ (running (.addReg 1 2) fun s => s).runs (.addReg 1 2) ∧
    (running (.drw 15 15 15#4) fun s => s).runs (.drw 15 15 15#4) := by
  simp only [State.runs]
  decide

/-- `EveryStepDecaysOnceAndLatches`, `EveryStepRecordsItsPcAndOpcode`, `CausesAreReportedExactlyWhenRaised`: steps that answer a next state, in
both modes; the tests above reach each of the four causes. -/
theorem witness_steps :
    (∃ t, step (running (.ldDtVx 0) fun s => s) = .next t) ∧ (∃ t, step (waiting 0 0#16 3#8 noInput) = .next t) ∧
    (running (.ldDtVx 0) fun s => s).pc.toNat ≤ 0xFFF ∧ (running (.ldDtVx 0) fun s => s).mode = .running ∧
    (waiting 0 0#16 3#8 noInput).pc.toNat ≤ 0xFFF ∧ (waiting 0 0#16 3#8 noInput).mode = .awaitKey ∧
    ∀ x, ¬ (waiting 0 0#16 3#8 noInput).runs (.ldDtVx x) := by
  refine ⟨⟨_, rfl⟩, ⟨_, rfl⟩, by decide, by decide, by decide, by decide, ?_⟩
  rintro x ⟨h, _⟩
  exact absurd h (by decide)

/-- `OnlyCallAndReturnChangeTheStack`: a call changes `SP` and a slot. -/
theorem witness_stack_changes :
    ∃ t, step (running (.call 0x210#12) fun s => s) = .next t ∧ t.sp ≠ (running (.call 0x210#12) fun s => s).sp ∧
      ∃ j, t.slot j ≠ (running (.call 0x210#12) fun s => s).slot j :=
  ⟨_, rfl, by decide, 0, by decide⟩

/-- `OnlyClearAndDrawChangeTheFramebuffer`. -/
theorem witness_framebuffer_changes :
    ∃ t, step (running .cls (lit 31 63)) = .next t ∧ ∃ py px, t.fbPort py px ≠ (running .cls (lit 31 63)).fbPort py px :=
  ⟨_, rfl, 31, 63, by decide⟩

/-- `OnlyStoresChangeMemory`. -/
theorem witness_memory_changes :
    ∃ t, step (running (.ldMemVx 0) fun s => (s.setV 0 7#8).setI 0x400#16) = .next t ∧
      ∃ a, t.byte a ≠ (running (.ldMemVx 0) fun s => (s.setV 0 7#8).setI 0x400#16).byte a :=
  ⟨_, rfl, 0x400, by decide⟩

/-- `OnlyTheirWritersChangeIndexAndSoundTimer`: a state for each clause. -/
theorem witness_index_and_sound_change :
    (∃ t, step (running (.ldI 0x400#12) fun s => s) = .next t ∧ t.i ≠ (running (.ldI 0x400#12) fun s => s).i) ∧
    ∃ t, step (running (.ldStVx 2) fun s => s.setV 2 0x3C#8) = .next t ∧
      t.st ≠ (running (.ldStVx 2) fun s => s.setV 2 0x3C#8).st :=
  ⟨⟨_, rfl, by decide⟩, _, rfl, by decide⟩

/-- `OnlyKeyWaitAndKeyEdgeChangeTheMode`: both modes, and both changes. -/
theorem witness_mode_changes :
    (∃ t, step (running (.ldVxK 3) fun s => s) = .next t ∧ (running (.ldVxK 3) fun s => s).mode = .running ∧ t.mode = .awaitKey) ∧
    ∃ t, step (waiting 2 0#16 0#8 ⟨0x0100#16, false, 0#8⟩) = .next t ∧
      (waiting 2 0#16 0#8 ⟨0x0100#16, false, 0#8⟩).mode = .awaitKey ∧ t.mode = .running :=
  ⟨⟨_, rfl, by decide, by decide⟩, _, rfl, by decide, by decide⟩

/-- `OnlyListedWritersChangeTheFlagRegister`: `VF` changed by a flag, as a data register, and by a key wait. -/
theorem witness_flag_changes :
    (∃ t, step (running (.shr 4) fun s => s.setV 4 1#8) = .next t ∧ t.getV 15 ≠ (running (.shr 4) fun s => s.setV 4 1#8).getV 15 ∧
      (Instr.shr 4).setsFlag = true) ∧
    (∃ t, step (running (.ldImm 15 7#8) fun s => s) = .next t ∧ t.getV 15 ≠ (running (.ldImm 15 7#8) fun s => s).getV 15) ∧
    ∃ t, step (waiting 15 0#16 0#8 ⟨0x0200#16, false, 0#8⟩) = .next t ∧
      t.getV 15 ≠ (waiting 15 0#16 0#8 ⟨0x0200#16, false, 0#8⟩).getV 15 :=
  ⟨⟨_, rfl, by decide, rfl⟩, ⟨_, rfl, by decide⟩, _, rfl, by decide⟩

/-- `HandlersReadNoOtherInput`: other inputs with the same keys for a key test, with the same random byte for `Cxkk`. -/
theorem witness_other_inputs :
    (let s := start 0xE19E (fun s => s) ⟨0x0020#16, false, 0#8⟩
     (∀ x, (Instr.skp 1 = .skp x ∨ Instr.skp 1 = .sknp x) →
        (s.withInputs [⟨0x0020#16, true, 0x55#8⟩] 7).input.keys = s.input.keys) ∧
      ∀ x kk, Instr.skp 1 = .rnd x kk → (s.withInputs [⟨0x0020#16, true, 0x55#8⟩] 7).input.rnd = s.input.rnd) ∧
    (let s := start 0xC3FF (fun s => s) ⟨0#16, false, 0xAB#8⟩
     (∀ x, (Instr.rnd 3 0xFF#8 = .skp x ∨ Instr.rnd 3 0xFF#8 = .sknp x) →
        (s.withInputs [⟨0xFFFF#16, true, 0xAB#8⟩] 7).input.keys = s.input.keys) ∧
      ∀ x kk, Instr.rnd 3 0xFF#8 = .rnd x kk → (s.withInputs [⟨0xFFFF#16, true, 0xAB#8⟩] 7).input.rnd = s.input.rnd) := by
  refine ⟨⟨fun _ _ => rfl, fun x kk h => ?_⟩, fun x h => ?_, fun _ _ _ => rfl⟩
  · cases h
  · rcases h with h | h <;> cases h

/-- `HaltLoopIsReexecuted`, `TheEndIsTheFirstHaltLoopReachedByAStep`: the halt loop at 0x200 and at the last address. -/
theorem witness_halt_loop :
    (running (.jp 0x200#12) fun s => s).atHaltLoop = true ∧
      (running (.jp 0xFFF#12) fun s => s.setPc 0xFFF#16).atHaltLoop = true := by
  decide

/-- A program of two instructions and a halt loop: `6005` at 0x200, `1204` at 0x202, the loop `1204` at 0x204. -/
def twoSteps : State :=
  { (((State.reset.memWrite 0x200 0x60#8).memWrite 0x201 0x05#8).memWrite 0x202 0x12#8).memWrite 0x203 0x04#8 |>.memWrite 0x204 0x12#8
      |>.memWrite 0x205 0x04#8 with sched := [noInput, noInput] }

/-- `TheEndIsTheFirstHaltLoopReachedByAStep`: a program that starts at its halt loop ends after one step, and one that jumps into it after the
second, which is its first state at the loop. -/
theorem witness_ends :
    (∃ t, (running (.jp 0x200#12) fun s => s).EndsAfter 1 t) ∧ ∃ t, twoSteps.EndsAfter 2 t := by
  refine ⟨⟨_, ⟨by decide, rfl, by decide, fun m u h0 h1 _ => ?_⟩⟩, ⟨_, ⟨by decide, rfl, by decide, fun m u h0 h1 h => ?_⟩⟩⟩
  · omega
  · obtain rfl : m = 1 := by omega
    cases h
    decide

/-- The same clause: a step that reaches a halt loop, and one that does not. -/
theorem witness_step_into_loop :
    (∃ t, step (start 0x1200 fun s => s) = .next t ∧ t.atHaltLoop = true) ∧ ∃ t, step twoSteps = .next t ∧ t.atHaltLoop = false :=
  ⟨⟨_, rfl, by decide⟩, _, rfl, by decide⟩

/-- `StepKeepsTheInvariant`, `StepNeverStopsWithinTheInvariant`: a state of the invariant, other than reset, with a next state. -/
theorem witness_invariant :
    (stacked 16 0xFFF#16 ((State.reset.setI 0xFFF#16).setPc 0xFFF#16)).Inv ∧
      ∃ t, step (stacked 16 0xFFF#16 ((State.reset.setI 0xFFF#16).setPc 0xFFF#16)) = .next t := by
  refine ⟨⟨by decide, by decide, fun j _ => ?_, rfl⟩, ⟨_, rfl⟩⟩
  revert j
  decide

/-- `StepNeverStopsWithinTheInvariant`: the first `PC` outside memory, and the last one inside. -/
theorem witness_pc_outside :
    ((State.reset.setPc 0x1000#16).mode = .running ∧ 0xFFF < (State.reset.setPc 0x1000#16).pc.toNat) ∧
    ¬ ((State.reset.setPc 0xFFF#16).mode = .running ∧ 0xFFF < (State.reset.setPc 0xFFF#16).pc.toNat) := by
  decide

/-- `ConstructionLoadsFontAndRom`, `ConstructionUnderZeroIsAllZero`: the empty ROM and the longest. -/
theorem witness_construct :
    (∃ s, construct defaultFont .zero [] = some s) ∧ (∃ s, construct defaultFont .zero (List.replicate 0xDFF 0x12#8) = some s) := by
  constructor
  · obtain ⟨s, h, _⟩ := construct_eq_some defaultFont .zero [] (by decide)
    exact ⟨s, h⟩
  · obtain ⟨s, h, _⟩ := construct_eq_some defaultFont .zero (List.replicate 0xDFF 0x12#8) (Nat.le_of_eq List.length_replicate)
    exact ⟨s, h⟩

/-- T-RS3: a ROM of 0xE00 bytes is refused. -/
theorem test_long_rom_refused : construct defaultFont .zero (List.replicate 0xE00 0#8) = none :=
  construct_eq_none _ _ _ (by rw [List.length_replicate]; decide)

/-- V-S4: the font, then the bytes of a ROM, then zeros. -/
theorem test_rom_image :
    [0x000, 0x04F, 0x200, 0x201, 0x203, 0x204].map (initialImage defaultFont [] [0x60#8, 0x0A#8, 0x00#8, 0xEE#8]) =
      [0xF0#8, 0x80#8, 0x60#8, 0x0A#8, 0xEE#8, 0#8] := by
  decide

end Sys2Proof.Tests
end

section
/-! PROOFS. The statements of spec/10_state.md: who changes the mode, and what construction leaves in the state. -/

namespace Sys2Proof.Machine

/-! ### The mode (spec/10_state.md R42) -/

/-- `Fx0A` is the only instruction that may write the mode. -/
theorem mayWrite_mode_iff (i : Instr) : mayWrite i .mode ↔ ∃ x, i = .ldVxK x := by
  cases i <;> simp [mayWrite]

theorem step_mode_of_ldVxK {s t : State} {x : VReg} (h : step s = .next t) (hr : s.runs (.ldVxK x)) :
    t.mode = .awaitKey := by
  rw [step_of_runs s _ hr] at h
  exact (Host.Outcome.next.inj h) ▸ rfl

/-- A key wait is over in the step that sees a new key (spec/40_cycle_driver.md R136). -/
theorem awaitStep_mode_of_newKey {s : State} {k : Key} (hk : s.newKey k) : s.awaitStep.mode = .running := by
  unfold State.awaitStep
  rcases awaitPoll_cases (s.beginDiag none) with ⟨hno, -⟩ | ⟨j, -, hpoll⟩
  · exact absurd hk (hno k)
  · rw [hpoll]
    rfl

/-- A step changes the mode only by running `Fx0A` or by seeing a new key in a key wait. -/
theorem step_mode_same_or {s t : State} (h : step s = .next t) :
    t.mode = s.mode ∨ (∃ x, s.runs (.ldVxK x)) ∨ (s.mode = .awaitKey ∧ ∃ k, s.newKey k) := by
  rcases step_same_or h .mode (by simp [everyStepWrites]) with hsame | ⟨i, hr, hw⟩ | ⟨hm, hk, -⟩
  · exact .inl hsame
  · obtain ⟨x, rfl⟩ := (mayWrite_mode_iff i).mp hw
    exact .inr (.inl ⟨x, hr⟩)
  · exact .inr (.inr ⟨hm, hk⟩)

theorem step_enters_awaitKey_iff {s t : State} (h : step s = .next t) (hm : s.mode = .running) :
    t.mode = .awaitKey ↔ ∃ x, s.runs (.ldVxK x) := by
  refine ⟨fun ht => ?_, fun ⟨x, hr⟩ => step_mode_of_ldVxK h hr⟩
  rcases step_mode_same_or h with hsame | hr | ⟨hm', -⟩
  · simp [hsame, hm] at ht
  · exact hr
  · simp [hm] at hm'

theorem step_leaves_awaitKey_iff {s t : State} (h : step s = .next t) (hm : s.mode = .awaitKey) :
    t.mode = .running ↔ ∃ k, s.newKey k := by
  constructor
  · intro ht
    rcases step_mode_same_or h with hsame | ⟨x, hrun, -⟩ | ⟨-, hk⟩
    · simp [hsame, hm] at ht
    · simp [hm] at hrun
    · exact hk
  · rintro ⟨k, hk⟩
    rw [step_awaitKey s hm] at h
    exact (Host.Outcome.next.inj h) ▸ awaitStep_mode_of_newKey hk

/-! ### The initial image (spec/10_state.md R54) -/

section
variable (font : Vector Byte 80) (fill rom : List Byte)

theorem initialImage_font (a : Fin 80) : initialImage font fill rom a.val = font[a.val] := by
  rw [initialImage, if_pos a.isLt]
  simp

theorem initialImage_rom (j : Fin rom.length) : initialImage font fill rom (0x200 + j.val) = rom[j.val] := by
  have hfont : ¬ 0x200 + j.val < Config.fontSize := by simp only [Config.fontSize]; omega
  rw [initialImage, if_neg hfont, if_pos ⟨Nat.le_add_right .., Nat.add_lt_add_left j.isLt _⟩]
  simp

theorem initialImage_elsewhere {a : Nat} (h80 : 80 ≤ a) (hrom : a < 0x200 ∨ 0x200 + rom.length ≤ a) :
    initialImage font fill rom a = fill.getD a 0#8 := by
  have hout : ¬ (Config.progBase ≤ a ∧ a < Config.progBase + rom.length) := by simp only [Config.progBase]; omega
  rw [initialImage, if_neg (Nat.not_lt.mpr h80), if_neg hout]

/-- The default font alone is what an unlisted address reads as. -/
theorem initialImage_defaultFont (a : Nat) : initialImage defaultFont [] [] a = Memory.unlisted a := by
  rw [Memory.unlisted]
  by_cases h : a < 80
  · rw [initialImage, if_pos h]
    rfl
  · have hle : 80 ≤ a := Nat.le_of_not_lt h
    have hfont : Config.font.getD a 0#8 = 0#8 := List.getD_eq_default _ _ hle
    rw [initialImage_elsewhere defaultFont [] [] hle (Nat.lt_or_ge a 0x200), hfont]
    rfl

end

/-! ### The constructed state (spec/10_state.md R57) -/

/-- What a construction that succeeds leaves in the state, field by field. -/
structure State.IsConstruction (font : Vector Byte 80) (draw : ResetDraw) (rom : List Byte) (s : State) : Prop where
  rom_le : rom.length ≤ 0xDFF
  v      : s.v = draw.v
  i      : s.i = draw.i.setWidth 16
  pc     : s.pc = Config.pcReset
  sp     : s.sp = 0
  stack  : s.stack = draw.stack
  dt     : s.dt = draw.dt
  st     : s.st = draw.st
  mode   : s.mode = .running
  waitx  : s.waitx = draw.waitx
  kprev  : s.kprev = draw.kprev
  fb     : s.fb = draw.fb
  mem_wf : Memory.wf s.mem = true
  byte   : ∀ a, a < 0x1000 → s.byte a = initialImage font draw.fill rom a

section
variable {font : Vector Byte 80} {policy : ResetPolicy} {draw : ResetDraw} {rom : List Byte} {s : State}

theorem isConstruction_of_construct (h : construct font policy rom = some s) : s.IsConstruction font policy.values rom := by
  by_cases hle : rom.length ≤ Config.maxRom
  · obtain ⟨s', hs', hv, hi, hpc, hsp, hstack, hdt, hst, hmode, hwaitx, hkprev, hfb, hwf, hbyte⟩ :=
      construct_eq_some font policy rom hle
    obtain rfl : s' = s := Option.some.inj (hs'.symm.trans h)
    exact ⟨hle, hv, hi, hpc, hsp, hstack, hdt, hst, hmode, hwaitx, hkprev, hfb, hwf, hbyte⟩
  · rw [construct_eq_none font policy rom (Nat.lt_of_not_le hle)] at h
    cases h

theorem State.IsConstruction.byte_font (hs : s.IsConstruction font draw rom) (a : Fin 80) : s.byte a.val = font[a.val] :=
  (hs.byte _ (by omega)).trans (initialImage_font font draw.fill rom a)

theorem State.IsConstruction.byte_rom (hs : s.IsConstruction font draw rom) (j : Fin rom.length) :
    s.byte (0x200 + j.val) = rom[j.val] := by
  have hle := hs.rom_le
  exact (hs.byte _ (by omega)).trans (initialImage_rom font draw.fill rom j)

theorem State.IsConstruction.inv (hs : s.IsConstruction font draw rom) : s.Inv where
  pc_le := by simp [hs.pc]
  i_le := by
    have hlt := draw.i.isLt
    rw [hs.i, BitVec.toNat_setWidth]
    omega
  ret_le j hj := by simp [hs.sp] at hj
  mem_wf := hs.mem_wf

end

/-- `State.reset` is the construction from the default font and an empty ROM under `ZERO` (log 7). -/
theorem construct_eq_reset : construct defaultFont .zero [] = some State.reset := by
  have hmem : Memory.ofImage (initialImage defaultFont ResetPolicy.zero.values.fill []) = [] :=
    Memory.ofImage_unlisted _ fun a _ => initialImage_defaultFont a
  have hrom : ([] : List Byte).length ≤ Config.maxRom := Nat.zero_le _
  rw [construct, if_pos hrom, hmem]
  rfl

/-! ### The statements -/

/-- Settles O43: the frame of a step leaves the mode to `Fx0A` and to a key wait that resolves, and both do change it. -/
theorem onlyKeyWaitAndKeyEdgeChangeTheMode : Obligations.OnlyKeyWaitAndKeyEdgeChangeTheMode :=
  ⟨rfl, fun _ _ h => ⟨step_enters_awaitKey_iff h, step_leaves_awaitKey_iff h⟩⟩

/-- Settles O50, from the initial image that the constructed memory reads as. -/
theorem constructionLoadsFontAndRom : Obligations.ConstructionLoadsFontAndRom := by
  intro font policy rom s h
  have hs := isConstruction_of_construct h
  exact ⟨by simp [hs.pc], hs.mode, hs.byte_font, hs.byte_rom⟩

/-- Settles O52, from the fields of a constructed state and the draw of zeros. -/
theorem constructionUnderZeroIsAllZero : Obligations.ConstructionUnderZeroIsAllZero := by
  refine ⟨fun font policy rom s h => ?_, fun font rom s h => ?_, construct_eq_reset⟩
  · have hs := isConstruction_of_construct h
    exact ⟨hs.inv, congrArg Fin.val hs.sp⟩
  · have hs : s.IsConstruction font ResetDraw.zeros rom := isConstruction_of_construct h
    refine ⟨fun r => ?_, hs.i, hs.dt, hs.st, fun j => ?_, fun py px => ?_, hs.waitx, hs.kprev, fun a h80 ha hrom => ?_⟩
    · simp [State.getV, hs.v, ResetDraw.zeros]
    · simp [State.slot, hs.stack, ResetDraw.zeros]
    · simp [State.fbPort, hs.fb, ResetDraw.zeros, Framebuffer.off, Framebuffer.pixel]
    · rw [hs.byte a ha, initialImage_elsewhere font _ rom h80 hrom]
      rfl

end Sys2Proof.Machine
end

section
/-! PROOFS. The statements of spec/30_encoding.md on the decoder: it agrees with the opcode map, what it rejects, and what it ignores.
The key fact is R104's: a row can fit only a word of its own family, so a word is looked up among the rows of its family. -/

namespace Sys2Proof

/-! ### A word and its fields (R101, R102) -/

section
variable (w : Word)

theorem encNnn_fields : encNnn (fieldOp w) (fieldNnn w) = w :=
  BitVec.extractLsb'_append_extractLsb' (w := 4) (len := 12)

theorem encXkk_fields : encXkk (fieldOp w) (fieldX w) (fieldKk w) = w :=
  (congrArg (fieldOp w ++ ·) (BitVec.extractLsb'_append_extractLsb'_eq_extractLsb' rfl)).trans (encNnn_fields w)

theorem fieldKk_nibbles : (regBits (fieldY w) ++ fieldN w : BitVec (4 + 4)) = fieldKk w :=
  BitVec.extractLsb'_append_extractLsb'_eq_extractLsb' rfl

theorem encXyn_fields : encXyn (fieldOp w) (fieldX w) (fieldY w) (fieldN w) = w :=
  (congrArg (encXkk (fieldOp w) (fieldX w)) (fieldKk_nibbles w)).trans (encXkk_fields w)

/-- A mask acts on the four nibbles one by one. -/
theorem and_nibbles (a b c d : BitVec 4) : w &&& (a ++ (b ++ (c ++ d)) : BitVec (4 + (4 + (4 + 4)))) =
    ((fieldOp w &&& a) ++ ((regBits (fieldX w) &&& b) ++ ((regBits (fieldY w) &&& c) ++ (fieldN w &&& d))) :
      BitVec (4 + (4 + (4 + 4)))) := by
  conv_lhs => rw [← encXyn_fields w]
  exact BitVec.and_append.trans (congrArg _ (BitVec.and_append.trans (congrArg _ BitVec.and_append)))

theorem and_0xF000 : w &&& 0xF000#16 = encXyn (fieldOp w) 0 0 0#4 := by
  refine (and_nibbles w (BitVec.allOnes 4) 0#4 0#4 0#4).trans ?_
  simp only [BitVec.and_allOnes, BitVec.and_zero]
  rfl

theorem and_0xF00F : w &&& 0xF00F#16 = encXyn (fieldOp w) 0 0 (fieldN w) := by
  refine (and_nibbles w (BitVec.allOnes 4) 0#4 0#4 (BitVec.allOnes 4)).trans ?_
  simp only [BitVec.and_allOnes, BitVec.and_zero]
  rfl

theorem and_0xF0FF : w &&& 0xF0FF#16 = encXkk (fieldOp w) 0 (fieldKk w) := by
  refine (and_nibbles w (BitVec.allOnes 4) 0#4 (BitVec.allOnes 4) (BitVec.allOnes 4)).trans ?_
  simp only [BitVec.and_allOnes, BitVec.and_zero, fieldKk_nibbles]
  rfl

theorem and_0xFFF0 : w &&& 0xFFF0#16 = encXyn (fieldOp w) (fieldX w) (fieldY w) 0#4 := by
  refine (and_nibbles w (BitVec.allOnes 4) (BitVec.allOnes 4) (BitVec.allOnes 4) 0#4).trans ?_
  simp only [BitVec.and_allOnes, BitVec.and_zero]
  rfl

end

/-! ### The rows that fit a word (R104) -/

/-- The word under the row's mask is the row's match value. -/
def OpcodeRow.fits (w : Word) (r : OpcodeRow) : Bool := w &&& r.mask == r.value

/-- No row asks for a bit that its mask leaves out. -/
theorem OpcodeRow.value_and_mask : ∀ r ∈ opcodeRows, r.value &&& r.mask = r.value := by decide

/-- Every mask looks at the whole high nibble. -/
theorem OpcodeRow.fieldOp_mask : ∀ r ∈ opcodeRows, fieldOp r.mask = BitVec.allOnes 4 := by decide

/-- The rows of one family, in the order of the map. -/
def familyRows (op : BitVec 4) : List OpcodeRow := opcodeRows.filter fun r => fieldOp r.value == op

section
variable {w : Word} {r : OpcodeRow}

theorem fieldOp_eq_of_fits (hr : r ∈ opcodeRows) (h : r.fits w = true) : fieldOp r.value = fieldOp w := by
  have hfit : w &&& r.mask = r.value := by simpa [OpcodeRow.fits] using h
  calc fieldOp r.value = fieldOp w &&& fieldOp r.mask := by rw [← hfit]; exact BitVec.extractLsb'_and
    _ = fieldOp w := by rw [OpcodeRow.fieldOp_mask r hr, BitVec.and_allOnes]

/-- Only the rows of a word's own family matter. -/
theorem find?_opcodeRows (w : Word) : opcodeRows.find? (·.fits w) = (familyRows (fieldOp w)).find? (·.fits w) := by
  rw [familyRows, List.find?_filter]
  refine List.find?_congr fun r hr => ?_
  by_cases h : r.fits w = true
  · simp [h, fieldOp_eq_of_fits hr h]
  · simp [h]

theorem mem_familyRows {op : BitVec 4} : r ∈ familyRows op ↔ r ∈ opcodeRows ∧ fieldOp r.value = op := by
  simp [familyRows]

theorem fits_iff (hr : r ∈ opcodeRows) : r.fits w = true ↔ w &&& r.mask = r.value &&& r.mask := by
  rw [OpcodeRow.value_and_mask r hr]
  exact beq_iff_eq

/-- Under the mask 0xF000 every row of the word's family fits. -/
theorem fits_of_mask_0xF000 (hr : r ∈ familyRows (fieldOp w)) (hm : r.mask = 0xF000#16) : r.fits w = true := by
  obtain ⟨hrow, hop⟩ := mem_familyRows.mp hr
  rw [fits_iff hrow, hm, and_0xF000, and_0xF000, hop]

/-- Under the mask 0xF00F the rows of the word's family are told apart by `n`. -/
theorem find?_familyRows_of_mask_0xF00F (hm : ∀ r ∈ familyRows (fieldOp w), r.mask = 0xF00F#16) :
    (familyRows (fieldOp w)).find? (·.fits w) = (familyRows (fieldOp w)).find? fun r => fieldN w == fieldN r.value := by
  refine List.find?_congr fun r hr => ?_
  obtain ⟨hrow, hop⟩ := mem_familyRows.mp hr
  rw [Bool.eq_iff_iff, fits_iff hrow, hm r hr, and_0xF00F, and_0xF00F, hop, beq_iff_eq]
  exact ⟨fun h => by simpa using congrArg fieldN h, fun h => by rw [h]⟩

/-- Under the mask 0xF0FF the rows of the word's family are told apart by `kk`. -/
theorem find?_familyRows_of_mask_0xF0FF (hm : ∀ r ∈ familyRows (fieldOp w), r.mask = 0xF0FF#16) :
    (familyRows (fieldOp w)).find? (·.fits w) = (familyRows (fieldOp w)).find? fun r => fieldKk w == fieldKk r.value := by
  refine List.find?_congr fun r hr => ?_
  obtain ⟨hrow, hop⟩ := mem_familyRows.mp hr
  rw [Bool.eq_iff_iff, fits_iff hrow, hm r hr, and_0xF0FF, and_0xF0FF, hop, beq_iff_eq]
  exact ⟨fun h => by simpa using congrArg fieldKk h, fun h => by rw [h]⟩

end

/-! ### The decoder, family by family (R105 to R109) -/

theorem Decoded.label?_eq_none_iff (d : Decoded) : d.label? = none ↔ ∃ r, d = .rejected r := by
  cases d <;> simp [Decoded.label?]

/-- The families that R106 decodes on the high nibble alone. -/
def highNibbleFamilies : List (BitVec 4) :=
  [0x1#4, 0x2#4, 0x3#4, 0x4#4, 0x5#4, 0x6#4, 0x7#4, 0x9#4, 0xA#4, 0xB#4, 0xC#4, 0xD#4]

theorem family_cases (op : BitVec 4) : op = 0x0#4 ∨ op ∈ highNibbleFamilies ∨ op = 0x8#4 ∨ op = 0xE#4 ∨ op = 0xF#4 := by
  revert op
  decide

/-- A branch of the decoder beside a row of the map: one condition, one label; then the branches and the rows after them. -/
theorem label?_ite {c : Prop} [Decidable c] {i : Instr} {d : Decoded} {fit : OpcodeRow → Bool} {r : OpcodeRow} {rows : List OpcodeRow}
    (hfit : fit r = decide c) (hlabel : i.label = r.label) (hrest : d.label? = (rows.find? fit).map OpcodeRow.label) :
    (if c then .instr i else d).label? = ((r :: rows).find? fit).map OpcodeRow.label := by
  by_cases hc : c
  · simp [hfit, hc, Decoded.label?, hlabel]
  · simp [hfit, hc, hrest]

theorem decodeZero_label? {w : Word} (h : fieldOp w = 0x0#4) :
    (decodeZero w).label? = ((familyRows 0x0#4).find? (·.fits w)).map OpcodeRow.label := by
  have hsys : OpcodeRow.fits w ⟨"SYS", 0xF000#16, 0x0000#16⟩ = true :=
    fits_of_mask_0xF000 (by rw [h]; decide) rfl
  have hfull (l : String) (v : Word) : OpcodeRow.fits w ⟨l, 0xFFFF#16, v⟩ = decide (w = v) :=
    congrArg (· == v) BitVec.and_allOnes
  refine label?_ite (hfull _ _) rfl (label?_ite (hfull _ _) rfl ?_)
  exact congrArg (Option.map OpcodeRow.label) (List.find?_cons_of_pos hsys).symm

theorem decodeAlu_label? (w : Word) :
    (decodeAlu w).label? = ((familyRows 0x8#4).find? fun r => fieldN w == fieldN r.value).map OpcodeRow.label := by
  unfold decodeAlu
  iterate 9 refine label?_ite rfl rfl ?_
  rfl

theorem decodeKey_label? (w : Word) :
    (decodeKey w).label? = ((familyRows 0xE#4).find? fun r => fieldKk w == fieldKk r.value).map OpcodeRow.label := by
  unfold decodeKey
  iterate 2 refine label?_ite rfl rfl ?_
  rfl

theorem decodeMisc_label? (w : Word) :
    (decodeMisc w).label? = ((familyRows 0xF#4).find? fun r => fieldKk w == fieldKk r.value).map OpcodeRow.label := by
  unfold decodeMisc
  iterate 9 refine label?_ite rfl rfl ?_
  rfl

/-- A word of these families decodes to the one row of its family, which looks at the high nibble alone. -/
theorem decodeWord_of_highNibble {w : Word} (h : fieldOp w ∈ highNibbleFamilies) :
    ∃ i r, decodeWord w = .instr i ∧ familyRows (fieldOp w) = [r] ∧ r.mask = 0xF000#16 ∧ i.label = r.label := by
  simp only [highNibbleFamilies, List.mem_cons, List.not_mem_nil, or_false] at h
  rcases h with h | h | h | h | h | h | h | h | h | h | h | h <;> rw [decodeWord, h] <;> exact ⟨_, _, rfl, rfl, rfl, rfl⟩

section
variable {w : Word}

theorem decodeWord_of_family0 (h : fieldOp w = 0x0#4) : decodeWord w = decodeZero w := by simp [decodeWord, h]

theorem decodeWord_of_family8 (h : fieldOp w = 0x8#4) : decodeWord w = decodeAlu w := by simp [decodeWord, h]

theorem decodeWord_of_familyE (h : fieldOp w = 0xE#4) : decodeWord w = decodeKey w := by simp [decodeWord, h]

theorem decodeWord_of_familyF (h : fieldOp w = 0xF#4) : decodeWord w = decodeMisc w := by simp [decodeWord, h]

theorem decodeZero_eq_instr (w : Word) : ∃ i, decodeZero w = .instr i := by
  unfold decodeZero
  split_ifs <;> exact ⟨_, rfl⟩

/-- Outside the families with sub-operations every word decodes (R105, R106). -/
theorem decodeWord_eq_instr (h : fieldOp w ∉ [0x8#4, 0xE#4, 0xF#4]) : ∃ i, decodeWord w = .instr i := by
  rcases family_cases (fieldOp w) with h0 | hop | h' | h' | h'
  · rw [decodeWord_of_family0 h0]
    exact decodeZero_eq_instr w
  · obtain ⟨i, _, hi, -⟩ := decodeWord_of_highNibble hop
    exact ⟨i, hi⟩
  all_goals simp [h'] at h

/-- A family decoded on a field `f` rejects a word when no row of the family has the word's value of `f`. -/
theorem rejected_iff_of_label? {α : Type} [DecidableEq α] {d : Decoded} {f : Word → α} {rows : List OpcodeRow}
    (h : d.label? = (rows.find? fun r => f w == f r.value).map OpcodeRow.label) :
    (∃ r, d = .rejected r) ↔ f w ∉ rows.map fun r => f r.value := by
  rw [← Decoded.label?_eq_none_iff, h, Option.map_eq_none_iff, List.find?_eq_none]
  simp [eq_comm (a := f w)]

/-- The label of a decoded word is that of the first fitting row of its family. -/
theorem decodeWord_label?_family : (decodeWord w).label? = ((familyRows (fieldOp w)).find? (·.fits w)).map OpcodeRow.label := by
  rcases family_cases (fieldOp w) with h | h | h | h | h
  · rw [decodeWord_of_family0 h, decodeZero_label? h, h]
  · obtain ⟨i, r, hi, hrows, hmask, hlabel⟩ := decodeWord_of_highNibble h
    have hfits : r.fits w = true := fits_of_mask_0xF000 (by simp [hrows]) hmask
    rw [hi, hrows, List.find?_cons_of_pos hfits, Decoded.label?, hlabel, Option.map_some]
  · rw [decodeWord_of_family8 h, decodeAlu_label?, find?_familyRows_of_mask_0xF00F (by rw [h]; decide), h]
  · rw [decodeWord_of_familyE h, decodeKey_label?, find?_familyRows_of_mask_0xF0FF (by rw [h]; decide), h]
  · rw [decodeWord_of_familyF h, decodeMisc_label?, find?_familyRows_of_mask_0xF0FF (by rw [h]; decide), h]

end

/-! ### The statements -/

/-- Settles O3: the rows of other families cannot fit, and within its family a word is decoded as the rows stand. -/
theorem decoderAgreesWithTheOpcodeMap : Obligations.DecoderAgreesWithTheOpcodeMap := fun w =>
  decodeWord_label?_family.trans (congrArg _ (find?_opcodeRows w).symm)

/-- Settles O4, from the rows of the three families with sub-operations. -/
theorem unknownSubOperationsAreRejected : Obligations.UnknownSubOperationsAreRejected := by
  refine fun w => ⟨fun h => ?_, fun h => ?_, fun h => ?_, decodeWord_eq_instr⟩
  · rw [decodeWord_of_family8 h, rejected_iff_of_label? (decodeAlu_label? w)]
    generalize fieldN w = n
    revert n
    decide
  · rw [decodeWord_of_familyE h]
    exact rejected_iff_of_label? (decodeKey_label? w)
  · rw [decodeWord_of_familyF h]
    exact rejected_iff_of_label? (decodeMisc_label? w)

/-- Settles O5: both words decode to the one row of their family, and the operands of `5xyN` and `9xyN` stand in bits 11:4. -/
theorem highNibbleAloneSelectsTheseFamilies : Obligations.HighNibbleAloneSelectsTheseFamilies := by
  constructor
  · intro w w' hop hmem
    obtain ⟨i, r, hi, hrows, -, hlabel⟩ := decodeWord_of_highNibble hmem
    obtain ⟨i', r', hi', hrows', -, hlabel'⟩ := decodeWord_of_highNibble (hop ▸ hmem)
    obtain rfl : r = r' := List.singleton_inj.mp (hrows.symm.trans (hop ▸ hrows'))
    exact ⟨i, i', hi, hi', hlabel.trans hlabel'.symm⟩
  · rintro w (h | h) <;> simp [and_0xFFF0, decodeWord, h]

/-- Settles O11, from the full-word tests of family 0x0 and the empty handler of `0nnn`. -/
theorem familyZeroIsFullWordAndSysIsSilent : Obligations.FamilyZeroIsFullWordAndSysIsSilent := by
  refine ⟨fun w h => ?_, fun s nnn => ⟨s, rfl, .refl _ s⟩⟩
  rw [decodeWord_of_family0 h]
  exact ⟨fun h0 => if_pos h0, fun h1 => by rw [h1]; rfl, fun h0 h1 => (if_neg h0).trans (if_neg h1)⟩

end Sys2Proof
end

section
/-! PROOFS. The statements of spec/41_control_flow.md on the two jumps: the family of each is read with its `nnn`, and its handler writes `PC`
alone, the jump with offset through `wrapA` and its report. -/

namespace Sys2Proof

/-! ### The families of the jumps (spec/30_encoding.md R106) -/

section
variable {w : Word}

theorem decodeWord_of_family1 (h : fieldOp w = 0x1#4) : decodeWord w = .instr (.jp (fieldNnn w)) := by simp [decodeWord, h]

theorem decodeWord_of_familyB (h : fieldOp w = 0xB#4) : decodeWord w = .instr (.jpV0 (fieldNnn w)) := by simp [decodeWord, h]

end

namespace Machine

/-! ### The targets, and the report of a wrapped `PC` -/

@[simp] theorem absolute_toNat (nnn : BitVec 12) : (absolute nnn).toNat = nnn.toNat :=
  BitVec.toNat_setWidth_of_le (by decide)

variable (s : State)

theorem setPcWrapped_pc_toNat (a : Nat) : (s.setPcWrapped a).pc.toNat = a % 0x1000 := by
  rw [setPcWrapped_pc, ofNat_wrapA_toNat]

/-- The report is that of the bounding; the write of `PC` after it leaves the record alone. -/
theorem reports_setPcWrapped (a : Nat) : Reports (0xFFF < a) .boundViolation s (s.setPcWrapped a) :=
  reports_reportBound s a

/-! ### What the handlers answer -/

variable (nnn : BitVec 12)

theorem exec_jp : exec (.jp nnn) s = .next (s.setPc (absolute nnn)) := rfl

theorem exec_jpV0 : exec (.jpV0 nnn) s = .next (s.setPcWrapped (nnn.toNat + (s.getV 0).toNat)) := rfl

end Machine

open Machine

/-! ### The statements -/

/-- Settles O13, from the value, the report and the frame of a wrapped write of `PC`. -/
theorem jumpWithOffsetAddsV0AndWraps : Obligations.JumpWithOffsetAddsV0AndWraps :=
  ⟨fun _ => decodeWord_of_familyB, fun s nnn =>
    ⟨_, exec_jpV0 s nnn, setPcWrapped_pc_toNat s _, reports_setPcWrapped s _, onlyChanges_setPcWrapped s _⟩⟩

/-- Settles O12, from the frame of a write of `PC`: the target needs no bounding, since `nnn` has 12 bits. -/
theorem jumpSetsThePc : Obligations.JumpSetsThePc :=
  ⟨fun _ => decodeWord_of_family1, fun s nnn => ⟨_, exec_jp s nnn, absolute_toNat nnn, onlyChanges_setPc s _⟩⟩

end Sys2Proof
end

section
/-! PROOFS. The statement of spec/42_skips.md: the four register skips share one handler, `State.skipIf`, so what a skip does is shown once, for
any instruction that answers it, and each of the four adds only its comparison of bytes. -/

namespace Sys2Proof

/-! ### The families of the register skips (spec/30_encoding.md R106) -/

section
variable {w : Word}

theorem decodeWord_of_family3 (h : fieldOp w = 0x3#4) : decodeWord w = .instr (.seImm (fieldX w) (fieldKk w)) := by simp [decodeWord, h]

theorem decodeWord_of_family4 (h : fieldOp w = 0x4#4) : decodeWord w = .instr (.sneImm (fieldX w) (fieldKk w)) := by simp [decodeWord, h]

theorem decodeWord_of_family5 (h : fieldOp w = 0x5#4) : decodeWord w = .instr (.seReg (fieldX w) (fieldY w)) := by simp [decodeWord, h]

theorem decodeWord_of_family9 (h : fieldOp w = 0x9#4) : decodeWord w = .instr (.sneReg (fieldX w) (fieldY w)) := by simp [decodeWord, h]

end

namespace Machine

variable (s : State)

/-! ### What the handlers answer -/

section
variable (x y : VReg) (kk : Byte)

theorem exec_seImm : exec (.seImm x kk) s = .next (s.skipIf (decide (s.getV x = kk))) := rfl

theorem exec_sneImm : exec (.sneImm x kk) s = .next (s.skipIf (decide (s.getV x ≠ kk))) := rfl

theorem exec_seReg : exec (.seReg x y) s = .next (s.skipIf (decide (s.getV x = s.getV y))) := rfl

theorem exec_sneReg : exec (.sneReg x y) s = .next (s.skipIf (decide (s.getV x ≠ s.getV y))) := rfl

end

/-! ### The shared skip (R180) -/

theorem skipIf_pc_of_taken {c : Bool} (h : c = true) : (s.skipIf c).pc.toNat = (s.pc.toNat + 2) % 0x1000 := by
  rw [skipIf_pc, if_pos h, ofNat_wrapA_toNat]

theorem skipIf_pc_of_not_taken {c : Bool} (h : ¬ c = true) : (s.skipIf c).pc = s.pc := by
  rw [skipIf_pc, if_neg h]

variable {s}

/-- An instruction skips when `p` holds, if it answers the shared skip on a test that decides `p`. -/
theorem skipsWhen_of_exec {i : Instr} {c : Bool} {p : Prop} (h : exec i s = .next (s.skipIf c)) (hp : c = true ↔ p) :
    SkipsWhen i p s := by
  obtain rfl : (c = true) = p := propext hp
  exact ⟨_, h, skipIf_pc_of_taken s, skipIf_pc_of_not_taken s, reports_skipIf s c, onlyChanges_skipIf s c⟩

/-- The test of bytes for equality is the comparison of their unsigned values. -/
theorem skipsWhen_eq {i : Instr} {a b : Byte} (h : exec i s = .next (s.skipIf (decide (a = b)))) :
    SkipsWhen i (a.toNat = b.toNat) s :=
  skipsWhen_of_exec h (decide_eq_true_iff.trans BitVec.toNat_inj.symm)

/-- The test of bytes for difference is the comparison of their unsigned values. -/
theorem skipsWhen_ne {i : Instr} {a b : Byte} (h : exec i s = .next (s.skipIf (decide (a ≠ b)))) :
    SkipsWhen i (a.toNat ≠ b.toNat) s :=
  skipsWhen_of_exec h (decide_eq_true_iff.trans BitVec.toNat_inj.symm.not)

end Machine

open Machine

/-! ### The statement -/

/-- Settles O17, from the shared skip and the comparison of each of the four instructions. -/
theorem registerSkipsCompareAndSkip : Obligations.RegisterSkipsCompareAndSkip :=
  ⟨fun _ => ⟨decodeWord_of_family3, decodeWord_of_family4, decodeWord_of_family5, decodeWord_of_family9⟩,
    fun s x y kk => ⟨skipsWhen_eq (exec_seImm s x kk), skipsWhen_ne (exec_sneImm s x kk),
      skipsWhen_eq (exec_seReg s x y), skipsWhen_ne (exec_sneReg s x y)⟩⟩

end Sys2Proof
end

section
/-! PROOFS. The statements of spec/43_alu.md: register loads and logic write `Vx` alone, addition, subtraction and shifts write `Vx` and then the
flag. What the two writes leave in the registers is said once, and each instruction adds the arithmetic of its result and of its flag. -/

namespace Sys2Proof

/-! ### Families 0x6 and 0x7, and the sub-operations of family 0x8 (spec/30_encoding.md R106, R107) -/

section
variable {w : Word}

theorem decodeWord_of_family6 (h : fieldOp w = 0x6#4) : decodeWord w = .instr (.ldImm (fieldX w) (fieldKk w)) := by simp [decodeWord, h]

theorem decodeWord_of_family7 (h : fieldOp w = 0x7#4) : decodeWord w = .instr (.addImm (fieldX w) (fieldKk w)) := by simp [decodeWord, h]

theorem decodeAlu_of_0 (h : fieldN w = 0x0#4) : decodeAlu w = .instr (.ldReg (fieldX w) (fieldY w)) := by simp [decodeAlu, h]

theorem decodeAlu_of_1 (h : fieldN w = 0x1#4) : decodeAlu w = .instr (.orReg (fieldX w) (fieldY w)) := by simp [decodeAlu, h]

theorem decodeAlu_of_2 (h : fieldN w = 0x2#4) : decodeAlu w = .instr (.andReg (fieldX w) (fieldY w)) := by simp [decodeAlu, h]

theorem decodeAlu_of_3 (h : fieldN w = 0x3#4) : decodeAlu w = .instr (.xorReg (fieldX w) (fieldY w)) := by simp [decodeAlu, h]

theorem decodeAlu_of_4 (h : fieldN w = 0x4#4) : decodeAlu w = .instr (.addReg (fieldX w) (fieldY w)) := by simp [decodeAlu, h]

theorem decodeAlu_of_5 (h : fieldN w = 0x5#4) : decodeAlu w = .instr (.subReg (fieldX w) (fieldY w)) := by simp [decodeAlu, h]

theorem decodeAlu_of_6 (h : fieldN w = 0x6#4) : decodeAlu w = .instr (.shr (fieldX w)) := by simp [decodeAlu, h]

theorem decodeAlu_of_7 (h : fieldN w = 0x7#4) : decodeAlu w = .instr (.subnReg (fieldX w) (fieldY w)) := by simp [decodeAlu, h]

theorem decodeAlu_of_E (h : fieldN w = 0xE#4) : decodeAlu w = .instr (.shl (fieldX w)) := by simp [decodeAlu, h]

end

namespace Machine

/-! ### The results of the ALU (R202) -/

section
variable (a b : Byte)

theorem aluAdd_toNat : (aluAdd a b).toNat = (a.toNat + b.toNat) % 256 := BitVec.toNat_ofNat ..

/-- The 256 that keeps the difference of naturals from truncating is lost in the remainder. -/
theorem aluSub_toNat : ((aluSub a b).toNat : Int) = ((a.toNat : Int) - b.toNat) % 256 := by
  have hb : b.toNat < 256 := b.isLt
  rw [aluSub, BitVec.toNat_ofNat]
  omega

theorem aluShr_toNat : (aluShr a).toNat = a.toNat / 2 := by
  rw [aluShr, BitVec.toNat_ushiftRight, Nat.shiftRight_eq_div_pow, Nat.pow_one]

theorem aluShl_toNat : (aluShl a).toNat = 2 * a.toNat % 256 := by
  rw [aluShl, BitVec.toNat_shiftLeft, Nat.shiftLeft_eq, Nat.mul_comm]

end

/-! ### The flags (spec/10_state.md R41) -/

theorem flagByte_decide (p : Prop) [Decidable p] : flagByte (decide p) = if p then 1#8 else 0#8 := Bool.cond_decide ..

/-- The flag that holds bit `n` of a byte. -/
theorem flagByte_getLsbD_toNat (a : Byte) (n : Nat) : (flagByte (a.getLsbD n)).toNat = a.toNat / 2 ^ n % 2 := by
  have hflag : ∀ b : Bool, (flagByte b).toNat = b.toNat := by decide
  exact (hflag _).trans (Nat.toNat_testBit a.toNat n)

theorem flagByte_lowBit_toNat (a : Byte) : (flagByte (lowBit a)).toNat = a.toNat % 2 := by
  rw [lowBit, flagByte_getLsbD_toNat, Nat.pow_zero, Nat.div_one]

/-- Bit 7 is the last, so nothing is left above it. -/
theorem flagByte_highBit_toNat (a : Byte) : (flagByte (highBit a)).toNat = a.toNat / 128 := by
  have ha : a.toNat < 256 := a.isLt
  rw [highBit, flagByte_getLsbD_toNat]
  omega

/-! ### The two registers of a data and flag write (spec/10_state.md R32) -/

section
variable (s : State) {x : VReg} (b : Byte) (flag : Bool)

theorem setVFlag_getV_data (h : x ≠ vf) : (s.setVFlag x b flag).getV x = b := by
  rw [setVFlag_getV, if_neg h, if_pos rfl]

theorem setVFlag_getV_vf : (s.setVFlag x b flag).getV vf = flagByte flag := by
  rw [setVFlag_getV, if_pos rfl]

end

/-! ### What the handlers answer -/

section
variable (s : State) (x y : VReg) (kk : Byte)

theorem exec_ldImm : exec (.ldImm x kk) s = .next (s.setV x kk) := rfl

theorem exec_addImm : exec (.addImm x kk) s = .next (s.setV x (aluAdd (s.getV x) kk)) := rfl

theorem exec_ldReg : exec (.ldReg x y) s = .next (s.setV x (s.getV y)) := rfl

theorem exec_orReg : exec (.orReg x y) s = .next (s.setV x (s.getV x ||| s.getV y)) := rfl

theorem exec_andReg : exec (.andReg x y) s = .next (s.setV x (s.getV x &&& s.getV y)) := rfl

theorem exec_xorReg : exec (.xorReg x y) s = .next (s.setV x (s.getV x ^^^ s.getV y)) := rfl

theorem exec_addReg : exec (.addReg x y) s =
    .next (s.setVFlag x (aluAdd (s.getV x) (s.getV y)) (carryOut (s.getV x) (s.getV y))) := rfl

theorem exec_subReg : exec (.subReg x y) s =
    .next (s.setVFlag x (aluSub (s.getV x) (s.getV y)) (strictlyGreater (s.getV x) (s.getV y))) := rfl

theorem exec_subnReg : exec (.subnReg x y) s =
    .next (s.setVFlag x (aluSub (s.getV y) (s.getV x)) (strictlyGreater (s.getV y) (s.getV x))) := rfl

theorem exec_shr : exec (.shr x) s = .next (s.setVFlag x (aluShr (s.getV x)) (lowBit (s.getV x))) := rfl

theorem exec_shl : exec (.shl x) s = .next (s.setVFlag x (aluShl (s.getV x)) (highBit (s.getV x))) := rfl

end

/-! ### The two shapes of an ALU instruction -/

section
variable {s : State} {i : Instr} {x : VReg} {d : Byte} {flag : Bool}

/-- An instruction that answers a register write leaves `d` in `Vx` and changes nothing else. -/
theorem writesVx_of_exec (h : exec i s = .next (s.setV x d)) :
    ∃ t, exec i s = .next t ∧ t.getV x = d ∧ OnlyChanges (fun p => p = .v x) s t :=
  ⟨_, h, setV_getV_same s x d, onlyChanges_setV s x d⟩

/-- An instruction that answers a data and flag write leaves `d` in `Vx`, unless the flag overwrites it, and the flag in `VF`. -/
theorem writesVxAndVf_of_exec (h : exec i s = .next (s.setVFlag x d flag)) :
    ∃ t, exec i s = .next t ∧ (x ≠ 15 → t.getV x = d) ∧ t.getV 15 = flagByte flag ∧
      OnlyChanges (fun p => p = .v x ∨ p = .v 15) s t :=
  ⟨_, h, setVFlag_getV_data s d flag, setVFlag_getV_vf s d flag, onlyChanges_setVFlag s x d flag⟩

/-- `8xy5` and `8xy7` are one subtraction `a - b`, with the operands exchanged. -/
theorem subtracts_of_exec {a b : Byte} (h : exec i s = .next (s.setVFlag x (aluSub a b) (strictlyGreater a b))) :
    ∃ t, exec i s = .next t ∧ (x ≠ 15 → ((t.getV x).toNat : Int) = ((a.toNat : Int) - b.toNat) % 256) ∧
      t.getV 15 = (if b.toNat < a.toNat then 1#8 else 0#8) ∧ OnlyChanges (fun p => p = .v x ∨ p = .v 15) s t := by
  obtain ⟨t, ht, hdata, hflag, hframe⟩ := writesVxAndVf_of_exec h
  exact ⟨t, ht, fun hx => hdata hx ▸ aluSub_toNat a b, hflag.trans (flagByte_decide _), hframe⟩

end

end Machine

open Machine

/-! ### The statements -/

/-- Settles O20: the written byte is the bitwise result, and the frame of a register write leaves `VF` alone. -/
theorem logicWritesVxWithoutAFlag : Obligations.LogicWritesVxWithoutAFlag := by
  refine ⟨fun w h => ?_, fun s x y => ⟨?_, ?_, ?_⟩⟩
  · rw [decodeWord_of_family8 h]
    exact ⟨decodeAlu_of_1, decodeAlu_of_2, decodeAlu_of_3⟩
  · obtain ⟨t, ht, hv, hframe⟩ := writesVx_of_exec (exec_orReg s x y)
    exact ⟨t, ht, fun b _ => by rw [hv, BitVec.getLsbD_or], hframe⟩
  · obtain ⟨t, ht, hv, hframe⟩ := writesVx_of_exec (exec_andReg s x y)
    exact ⟨t, ht, fun b _ => by rw [hv, BitVec.getLsbD_and], hframe⟩
  · obtain ⟨t, ht, hv, hframe⟩ := writesVx_of_exec (exec_xorReg s x y)
    exact ⟨t, ht, fun b _ => by rw [hv, BitVec.getLsbD_xor], hframe⟩

/-- Settles O21: the flag is written after the sum, so it is the carry of the old values for `x = 0xF` as well. -/
theorem addWritesTheSumThenTheCarry : Obligations.AddWritesTheSumThenTheCarry := by
  refine ⟨fun w h hn => (decodeWord_of_family8 h).trans (decodeAlu_of_4 hn), fun s x y => ?_⟩
  obtain ⟨t, ht, hdata, hflag, hframe⟩ := writesVxAndVf_of_exec (exec_addReg s x y)
  exact ⟨t, ht, fun hx => by rw [hdata hx, aluAdd_toNat], hflag.trans (flagByte_decide _), hframe⟩

/-- Settles O22, from the one subtraction that both instructions answer. -/
theorem subtractWritesTheDifferenceThenTheStrictFlag : Obligations.SubtractWritesTheDifferenceThenTheStrictFlag := by
  refine ⟨fun w h => ?_, fun s x y => ⟨subtracts_of_exec (exec_subReg s x y), subtracts_of_exec (exec_subnReg s x y)⟩⟩
  rw [decodeWord_of_family8 h]
  exact ⟨decodeAlu_of_5, decodeAlu_of_7⟩

/-- Settles O23: a shift halves or doubles `Vx`, and its flag is the bit at the end that it moves out. -/
theorem shiftsMoveOneBitIntoVf : Obligations.ShiftsMoveOneBitIntoVf := by
  refine ⟨fun w h => ?_, fun s x => ⟨?_, ?_⟩⟩
  · rw [decodeWord_of_family8 h]
    exact ⟨decodeAlu_of_6, decodeAlu_of_E⟩
  · obtain ⟨t, ht, hdata, hflag, hframe⟩ := writesVxAndVf_of_exec (exec_shr s x)
    exact ⟨t, ht, fun hx => by rw [hdata hx, aluShr_toNat], by rw [hflag, flagByte_lowBit_toNat], hframe⟩
  · obtain ⟨t, ht, hdata, hflag, hframe⟩ := writesVxAndVf_of_exec (exec_shl s x)
    exact ⟨t, ht, fun hx => by rw [hdata hx, aluShl_toNat], by rw [hflag, flagByte_highBit_toNat], hframe⟩

/-- Settles O19, from the frame of a register write. -/
theorem registerLoadsWriteVxAlone : Obligations.RegisterLoadsWriteVxAlone := by
  refine ⟨fun w => ⟨decodeWord_of_family6, decodeWord_of_family7, fun h hn => (decodeWord_of_family8 h).trans (decodeAlu_of_0 hn)⟩,
    fun s x y kk => ⟨writesVx_of_exec (exec_ldImm s x kk), ?_, writesVx_of_exec (exec_ldReg s x y)⟩⟩
  obtain ⟨t, ht, hv, hframe⟩ := writesVx_of_exec (exec_addImm s x kk)
  exact ⟨t, ht, by rw [hv, aluAdd_toNat], hframe⟩

end Sys2Proof
end

section
/-! PROOFS. The statements of spec/44_index_memory.md. The loads of `I` and the two block transfers rest on the laws of the operation that each
handler calls; `Fx33` adds what three bytes stored in a row leave in memory, at addresses that wrap but never meet. -/

namespace Sys2Proof

/-! ### Family 0xA and the sub-operations of family 0xF (spec/30_encoding.md R106, R109) -/

section
variable {w : Word}

theorem decodeWord_of_familyA (h : fieldOp w = 0xA#4) : decodeWord w = .instr (.ldI (fieldNnn w)) := by simp [decodeWord, h]

theorem decodeMisc_of_1E (h : fieldKk w = 0x1E#8) : decodeMisc w = .instr (.addIVx (fieldX w)) := by simp [decodeMisc, h]

theorem decodeMisc_of_29 (h : fieldKk w = 0x29#8) : decodeMisc w = .instr (.ldFVx (fieldX w)) := by simp [decodeMisc, h]

theorem decodeMisc_of_33 (h : fieldKk w = 0x33#8) : decodeMisc w = .instr (.ldBVx (fieldX w)) := by simp [decodeMisc, h]

theorem decodeMisc_of_55 (h : fieldKk w = 0x55#8) : decodeMisc w = .instr (.ldMemVx (fieldX w)) := by simp [decodeMisc, h]

theorem decodeMisc_of_65 (h : fieldKk w = 0x65#8) : decodeMisc w = .instr (.ldVxMem (fieldX w)) := by simp [decodeMisc, h]

end

namespace Machine

/-! ### Glyph addresses and decimal digits (R226, R227) -/

section
variable (v : Byte)

/-- The glyph address of every byte fits `I`: it is at most 5 * 255. -/
theorem ofNat_glyphAddr_toNat : (BitVec.ofNat 16 (glyphAddr v)).toNat = 5 * v.toNat := by
  have hv : v.toNat < 256 := v.isLt
  rw [glyphAddr, BitVec.toNat_ofNat]
  omega

theorem bcdHundreds_toNat : (bcdHundreds v).toNat = v.toNat / 100 :=
  (BitVec.toNat_ofNat ..).trans (Nat.mod_eq_of_lt ((Nat.div_le_self ..).trans_lt v.isLt))

theorem bcdTens_toNat : (bcdTens v).toNat = v.toNat / 10 % 10 :=
  (BitVec.toNat_ofNat ..).trans (Nat.mod_eq_of_lt ((Nat.mod_lt _ (by decide)).trans (by decide)))

theorem bcdOnes_toNat : (bcdOnes v).toNat = v.toNat % 10 :=
  (BitVec.toNat_ofNat ..).trans (Nat.mod_eq_of_lt ((Nat.mod_lt _ (by decide)).trans (by decide)))

end

variable (s : State)

/-! ### One store (spec/20_memory.md R75) -/

section
variable (a : Nat) (b : Byte)

theorem memWrite_byte_same (hwf : Memory.wf s.mem = true) : (s.memWrite a b).byte (wrapA a) = b :=
  Memory.read_write_same hwf

theorem memWrite_byte_of_ne {c : Nat} (h : c ≠ wrapA a) : (s.memWrite a b).byte c = s.byte c :=
  Memory.read_write_of_ne h

/-- The report is that of the bounding; the write of memory after it leaves the record alone. -/
theorem reports_memWrite : Reports (0xFFF < a) .boundViolation s (s.memWrite a b) := reports_reportBound s a

end

/-! ### Three stores in a row, the shape of `Fx33` (R227) -/

/-- `b₀`, `b₁` and `b₂` stored at `a`, `a + 1` and `a + 2`, in that order. -/
def State.memWriteThree (a : Nat) (b₀ b₁ b₂ : Byte) : State := ((s.memWrite a b₀).memWrite (a + 1) b₁).memWrite (a + 2) b₂

section
variable (a : Nat) (b₀ b₁ b₂ : Byte)

/-- Each byte is read back, because the later stores go to other addresses. -/
theorem memWriteThree_byte (hwf : Memory.wf s.mem = true) :
    (s.memWriteThree a b₀ b₁ b₂).byte (wrapA a) = b₀ ∧ (s.memWriteThree a b₀ b₁ b₂).byte (wrapA (a + 1)) = b₁ ∧
      (s.memWriteThree a b₀ b₁ b₂).byte (wrapA (a + 2)) = b₂ := by
  have h01 : wrapA a ≠ wrapA (a + 1) := wrapA_add_ne (j := 0) (by decide) (by decide) (by decide)
  have h02 : wrapA a ≠ wrapA (a + 2) := wrapA_add_ne (j := 0) (by decide) (by decide) (by decide)
  have h12 : wrapA (a + 1) ≠ wrapA (a + 2) := wrapA_add_ne (by decide) (by decide) (by decide)
  have hwf₁ := Memory.wf_memWrite s a b₀ hwf
  have hwf₂ := Memory.wf_memWrite _ (a + 1) b₁ hwf₁
  unfold State.memWriteThree
  refine ⟨?_, ?_, memWrite_byte_same _ _ _ hwf₂⟩
  · rw [memWrite_byte_of_ne _ _ _ h02, memWrite_byte_of_ne _ _ _ h01, memWrite_byte_same s a b₀ hwf]
  · rw [memWrite_byte_of_ne _ _ _ h12, memWrite_byte_same _ _ _ hwf₁]

/-- The last address is the greatest, so some store reports when the last one does. -/
theorem reports_memWriteThree : Reports (0xFFF < a + 2) .boundViolation s (s.memWriteThree a b₀ b₁ b₂) :=
  (((reports_memWrite s a b₀).trans (reports_memWrite _ (a + 1) b₁)).trans (reports_memWrite _ (a + 2) b₂)).congr (by omega)

theorem onlyChanges_memWriteThree :
    OnlyChanges (fun p => p = .causes ∨ p = .byte (wrapA a) ∨ p = .byte (wrapA (a + 1)) ∨ p = .byte (wrapA (a + 2))) s
      (s.memWriteThree a b₀ b₁ b₂) :=
  ((onlyChanges_memWrite s a b₀).mono (by tauto)).trans
    (((onlyChanges_memWrite _ (a + 1) b₁).mono (by tauto)).trans ((onlyChanges_memWrite _ (a + 2) b₂).mono (by tauto)))

end

/-! ### What the handlers answer -/

section
variable (nnn : BitVec 12) (x : VReg)

theorem exec_ldI : exec (.ldI nnn) s = .next (s.setI (absolute nnn)) := rfl

theorem exec_ldFVx : exec (.ldFVx x) s = .next (s.setI (BitVec.ofNat 16 (glyphAddr (s.getV x)))) := rfl

theorem exec_addIVx : exec (.addIVx x) s = .next (s.setIWrapped (s.i.toNat + (s.getV x).toNat)) := rfl

theorem exec_ldBVx : exec (.ldBVx x) s =
    .next (s.memWriteThree s.i.toNat (bcdHundreds (s.getV x)) (bcdTens (s.getV x)) (bcdOnes (s.getV x))) := rfl

theorem exec_ldMemVx : exec (.ldMemVx x) s = .next ((regsUpTo x).foldl State.storeReg s) := rfl

theorem exec_ldVxMem : exec (.ldVxMem x) s = .next ((regsUpTo x).foldl State.loadReg s) := rfl

end

/-! ### The wrapped write of `I` (R225) -/

section
variable (a : Nat)

theorem setIWrapped_i_toNat : (s.setIWrapped a).i.toNat = a % 0x1000 := by
  rw [setIWrapped_i, ofNat_wrapA_toNat]

/-- The report is that of the bounding; the write of `I` after it leaves the record alone. -/
theorem reports_setIWrapped : Reports (0xFFF < a) .boundViolation s (s.setIWrapped a) := reports_reportBound s a

end

/-! ### The block transfers of `V0` to `Vx` (R228, R229) -/

section
variable (x : VReg)

theorem storeRegsUpTo_byte (hwf : Memory.wf s.mem = true) {k : VReg} (hk : k.val ≤ x.val) :
    ((regsUpTo x).foldl State.storeReg s).byte (wrapA (s.i.toNat + k.val)) = s.getV k := by
  obtain ⟨-, hbyte, -⟩ := storeLoop_spec s (x.val + 1) x.isLt hwf
  exact hbyte k (Nat.lt_succ_of_le hk)

theorem reports_storeRegsUpTo : Reports (∃ k : VReg, k.val ≤ x.val ∧ 0xFFF < s.i.toNat + k.val) .boundViolation s
    ((regsUpTo x).foldl State.storeReg s) :=
  (reports_storeLoop s (regsUpTo x)).congr (by simp only [mem_regsUpTo])

theorem onlyChanges_storeRegsUpTo :
    OnlyChanges (fun p => p = .causes ∨ ∃ k : VReg, k.val ≤ x.val ∧ p = .byte (wrapA (s.i.toNat + k.val))) s
      ((regsUpTo x).foldl State.storeReg s) :=
  (onlyChanges_storeLoop s (regsUpTo x)).mono (by simp only [mem_regsUpTo, imp_self, implies_true])

theorem loadRegsUpTo_getV {k : VReg} (hk : k.val ≤ x.val) :
    ((regsUpTo x).foldl State.loadReg s).getV k = s.byte (wrapA (s.i.toNat + k.val)) :=
  loadLoop_getV s (regsUpTo x) k (mem_regsUpTo.mpr hk)

theorem reports_loadRegsUpTo : Reports (∃ k : VReg, k.val ≤ x.val ∧ 0xFFF < s.i.toNat + k.val) .boundViolation s
    ((regsUpTo x).foldl State.loadReg s) :=
  (reports_loadLoop s (regsUpTo x)).congr (by simp only [mem_regsUpTo])

theorem onlyChanges_loadRegsUpTo :
    OnlyChanges (fun p => p = .causes ∨ ∃ k : VReg, k.val ≤ x.val ∧ p = .v k) s ((regsUpTo x).foldl State.loadReg s) :=
  (onlyChanges_loadLoop s (regsUpTo x)).mono (by simp only [mem_regsUpTo, imp_self, implies_true])

end

end Machine

open Machine

/-! ### The statements -/

/-- Settles O26, from the value, the report and the frame of a wrapped write of `I`. -/
theorem indexAddWrapsWithoutAFlag : Obligations.IndexAddWrapsWithoutAFlag :=
  ⟨fun _ h hkk => (decodeWord_of_familyF h).trans (decodeMisc_of_1E hkk), fun s x =>
    ⟨_, exec_addIVx s x, setIWrapped_i_toNat s _, reports_setIWrapped s _, onlyChanges_setIWrapped s _⟩⟩

/-- Settles O27: the three stores go to different addresses, and each stored byte is its decimal digit. -/
theorem bcdStoresThreeDigits : Obligations.BcdStoresThreeDigits := by
  refine ⟨fun _ h hkk => (decodeWord_of_familyF h).trans (decodeMisc_of_33 hkk), fun s x =>
    ⟨_, exec_ldBVx s x, fun hwf => ?_, reports_memWriteThree s _ _ _ _, onlyChanges_memWriteThree s _ _ _ _⟩⟩
  obtain ⟨h0, h1, h2⟩ :=
    memWriteThree_byte s s.i.toNat (bcdHundreds (s.getV x)) (bcdTens (s.getV x)) (bcdOnes (s.getV x)) hwf
  exact ⟨(congrArg BitVec.toNat h0).trans (bcdHundreds_toNat _), (congrArg BitVec.toNat h1).trans (bcdTens_toNat _),
    (congrArg BitVec.toNat h2).trans (bcdOnes_toNat _)⟩

/-- Settles O28, from the loop of stores over `V0` to `Vx`. -/
theorem blockStoreWritesV0ToVx : Obligations.BlockStoreWritesV0ToVx :=
  ⟨fun _ h hkk => (decodeWord_of_familyF h).trans (decodeMisc_of_55 hkk), fun s x =>
    ⟨_, exec_ldMemVx s x, fun hwf _ => storeRegsUpTo_byte s x hwf, reports_storeRegsUpTo s x, onlyChanges_storeRegsUpTo s x⟩⟩

/-- Settles O29, from the loop of loads over `V0` to `Vx`: no load of the loop changes memory or `I`, which later loads read. -/
theorem blockLoadReadsV0ToVx : Obligations.BlockLoadReadsV0ToVx :=
  ⟨fun _ h hkk => (decodeWord_of_familyF h).trans (decodeMisc_of_65 hkk), fun s x =>
    ⟨_, exec_ldVxMem s x, fun _ => loadRegsUpTo_getV s x, reports_loadRegsUpTo s x, onlyChanges_loadRegsUpTo s x⟩⟩

/-- Settles O25, from the frame of a write of `I`: neither value needs bounding, since `nnn` has 12 bits and a glyph address fits `I`. -/
theorem indexLoadsSetI : Obligations.IndexLoadsSetI :=
  ⟨fun _ => ⟨decodeWord_of_familyA, fun h hkk => (decodeWord_of_familyF h).trans (decodeMisc_of_29 hkk)⟩, fun s nnn x =>
    ⟨⟨_, exec_ldI s nnn, absolute_toNat nnn, onlyChanges_setI s _⟩,
      ⟨_, exec_ldFVx s x, ofNat_glyphAddr_toNat _, onlyChanges_setI s _⟩⟩⟩

end Sys2Proof
end

section
/-! PROOFS. The statement of spec/45_display.md on `00E0`: its one write is the whole framebuffer, and the framebuffer it writes has every pixel
off. -/

namespace Sys2Proof

namespace Machine

@[simp] theorem Framebuffer.pixel_off (py : Fin 32) (px : Fin 64) : Framebuffer.off.pixel py px = false := by
  simp [Framebuffer.pixel, Framebuffer.off]

variable (s : State)

theorem exec_cls : exec .cls s = .next (s.setFb Framebuffer.off) := rfl

theorem setFb_off_fbPort (py : Fin 32) (px : Fin 64) : (s.setFb Framebuffer.off).fbPort py px = false := by
  rw [setFb_fbPort, Framebuffer.pixel_off]

end Machine

open Machine

/-! ### The statement -/

/-- Settles O31, from the pixels and the frame of a write of the framebuffer; the decoding is the full-word test of family 0x0. -/
theorem clearTurnsEveryPixelOff : Obligations.ClearTurnsEveryPixelOff := by
  obtain ⟨hdecode, -⟩ := familyZeroIsFullWordAndSysIsSilent
  obtain ⟨hcls, -, -⟩ := hdecode 0x00E0#16 (by decide)
  exact ⟨hcls rfl, fun s => ⟨_, exec_cls s, setFb_off_fbPort s, onlyChanges_setFb s _⟩⟩

end Sys2Proof
end

section
/-! PROOFS. The statement of spec/70_reset_and_hazards.md on the load error: the length of the ROM alone decides whether construction refuses. -/

namespace Sys2Proof.Machine

/-- Settles O51, from the two laws of construction: a ROM of legal length gives a machine, a longer one gives none. -/
theorem constructionRefusesExactlyLongRoms : Obligations.ConstructionRefusesExactlyLongRoms := by
  intro font policy rom
  refine ⟨fun hnone => ?_, construct_eq_none font policy rom⟩
  by_contra hle
  obtain ⟨s, hsome, -⟩ := construct_eq_some font policy rom (Nat.le_of_not_lt hle)
  cases hnone.symm.trans hsome

end Sys2Proof.Machine
end

section
/-! PROOFS. The two round trips of spec/30_encoding.md. The encoder writes an instruction's fields in its format and the decoder reads them back;
the other way, each branch of the decoder has tested the bits that the format writes besides the fields. -/

namespace Sys2Proof

/-! ### From an instruction to its word and back -/

/-- The words 0x00E0 and 0x00EE are the two that `0nnn` must not stand for (R105). -/
theorem decodeWord_encode_sys {nnn : BitVec 12} (h : (Instr.sys nnn).wellFormed = true) :
    decodeWord (encode (.sys nnn)) = .instr (.sys nnn) := by
  simp only [Instr.wellFormed, Bool.and_eq_true, bne_iff_ne] at h
  obtain ⟨hcls, hret⟩ := h
  have hcls' : encNnn 0x0#4 nnn ≠ 0x00E0#16 := fun e => hcls ((fieldNnn_encNnn _ nnn).symm.trans (congrArg fieldNnn e))
  have hret' : encNnn 0x0#4 nnn ≠ 0x00EE#16 := fun e => hret ((fieldNnn_encNnn _ nnn).symm.trans (congrArg fieldNnn e))
  simp [encode, decodeWord, decodeZero, hcls', hret']

theorem decodeWord_encode {i : Instr} (h : i.wellFormed = true) : decodeWord (encode i) = .instr i := by
  cases i
  case sys => exact decodeWord_encode_sys h
  case cls | ret => rfl
  case jp | call | ldI | jpV0 => simp [encode, decodeWord]
  case seImm | sneImm | ldImm | addImm | rnd => simp [encode, decodeWord]
  case seReg | sneReg | drw => simp [encode, decodeWord]
  case ldReg | orReg | andReg | xorReg | addReg | subReg | shr | subnReg | shl => simp [encode, decodeWord_of_family8, decodeAlu]
  case skp | sknp => simp [encode, decodeWord_of_familyE, decodeKey]
  case ldVxDt | ldVxK | ldDtVx | ldStVx | addIVx | ldFVx | ldBVx | ldMemVx | ldVxMem =>
    simp [encode, decodeWord_of_familyF, decodeMisc]

/-! ### From a word to its instruction and back -/

/-- The instruction is well formed, and its word is `w` up to the bits it ignores. -/
def Instr.Reencodes (w : Word) (i : Instr) : Prop := i.wellFormed = true ∧ encode i = w &&& usedBits i

/-- If the decoder answers an instruction, its word is `w` up to the bits it ignores. -/
def Decoded.Reencodes (w : Word) (d : Decoded) : Prop := ∀ i, d = .instr i → i.Reencodes w

section
variable {w : Word} {i : Instr} {op n : BitVec 4} {kk : Byte}

theorem Decoded.reencodes_instr (h : i.Reencodes w) : (Decoded.instr i).Reencodes w := by
  rintro _ ⟨⟩
  exact h

theorem Decoded.reencodes_rejected (r : Reject) : (Decoded.rejected r).Reencodes w := nofun

/-- A branch of the decoder: what its test says of the word is known of the answer. -/
theorem Decoded.reencodes_ite {c : Prop} [Decidable c] {d e : Decoded} (hthen : c → d.Reencodes w) (helse : ¬ c → e.Reencodes w) :
    (if c then d else e).Reencodes w := by
  split_ifs with h
  · exact hthen h
  · exact helse h

/-- A branch that answers an instruction. -/
theorem Decoded.reencodes_ite_instr {c : Prop} [Decidable c] {e : Decoded} (hthen : c → i.Reencodes w) (helse : ¬ c → e.Reencodes w) :
    (if c then .instr i else e).Reencodes w :=
  reencodes_ite (fun h => reencodes_instr (hthen h)) helse

/-- An instruction without ignored bits re-encodes its word when it encodes to it. -/
theorem Instr.Reencodes.of_encode (hwf : i.wellFormed = true) (hused : usedBits i = BitVec.allOnes 16) (h : encode i = w) :
    i.Reencodes w :=
  ⟨hwf, by rw [hused, BitVec.and_allOnes, h]⟩

/-! The word of each format, from the fields that the decoder has tested (R102). -/

theorem encNnn_of_fields (hop : fieldOp w = op) : encNnn op (fieldNnn w) = w := hop ▸ encNnn_fields w

theorem encXkk_of_fields (hop : fieldOp w = op) (hkk : fieldKk w = kk) : encXkk op (fieldX w) kk = w :=
  hop ▸ hkk ▸ encXkk_fields w

theorem encXyn_of_fields (hop : fieldOp w = op) (hn : fieldN w = n) : encXyn op (fieldX w) (fieldY w) n = w :=
  hop ▸ hn ▸ encXyn_fields w

/-- The word without the `y` field, which the shifts ignore (spec/43_alu.md R198, R200). -/
theorem and_0xFF0F (hop : fieldOp w = op) (hn : fieldN w = n) : encXyn op (fieldX w) 0 n = w &&& 0xFF0F#16 := by
  refine Eq.symm ((and_nibbles w (BitVec.allOnes 4) (BitVec.allOnes 4) 0#4 (BitVec.allOnes 4)).trans ?_)
  simp only [BitVec.and_allOnes, BitVec.and_zero, hop, hn]
  rfl

/-- The word without the low nibble, which `5xyN` and `9xyN` ignore (R106). -/
theorem encXyn_zero_of_fields (hop : fieldOp w = op) : encXyn op (fieldX w) (fieldY w) 0#4 = w &&& 0xFFF0#16 :=
  hop ▸ (and_0xFFF0 w).symm

/-! The families (R105 to R109). -/

theorem decodeZero_reencodes (h : fieldOp w = 0x0#4) : (decodeZero w).Reencodes w := by
  refine Decoded.reencodes_ite_instr (fun hw => .of_encode rfl rfl hw.symm) fun hcls =>
    Decoded.reencodes_ite_instr (fun hw => .of_encode rfl rfl hw.symm) fun hret =>
    Decoded.reencodes_instr (.of_encode ?_ rfl (encNnn_of_fields h))
  have hfull (v : BitVec 12) (hv : w ≠ encNnn 0x0#4 v) : fieldNnn w ≠ v := fun e => hv (e ▸ (encNnn_of_fields h).symm)
  simp only [Instr.wellFormed, Bool.and_eq_true, bne_iff_ne]
  exact ⟨hfull _ hcls, hfull _ hret⟩

theorem decodeAlu_reencodes (h : fieldOp w = 0x8#4) : (decodeAlu w).Reencodes w := by
  unfold decodeAlu
  iterate 6 refine Decoded.reencodes_ite_instr (fun hn => .of_encode rfl rfl (encXyn_of_fields h hn)) fun _ => ?_
  refine Decoded.reencodes_ite_instr (fun hn => ⟨rfl, and_0xFF0F h hn⟩) fun _ => ?_
  refine Decoded.reencodes_ite_instr (fun hn => .of_encode rfl rfl (encXyn_of_fields h hn)) fun _ => ?_
  exact Decoded.reencodes_ite_instr (fun hn => ⟨rfl, and_0xFF0F h hn⟩) fun _ => Decoded.reencodes_rejected _

theorem decodeKey_reencodes (h : fieldOp w = 0xE#4) : (decodeKey w).Reencodes w := by
  unfold decodeKey
  iterate 2 refine Decoded.reencodes_ite_instr (fun hkk => .of_encode rfl rfl (encXkk_of_fields h hkk)) fun _ => ?_
  exact Decoded.reencodes_rejected _

theorem decodeMisc_reencodes (h : fieldOp w = 0xF#4) : (decodeMisc w).Reencodes w := by
  unfold decodeMisc
  iterate 9 refine Decoded.reencodes_ite_instr (fun hkk => .of_encode rfl rfl (encXkk_of_fields h hkk)) fun _ => ?_
  exact Decoded.reencodes_rejected _

/-- The whole decoder (R110): the families with operands alone, and those with sub-operations. -/
theorem decodeWord_reencodes (w : Word) : (decodeWord w).Reencodes w := by
  unfold decodeWord
  refine Decoded.reencodes_ite decodeZero_reencodes fun _ => ?_
  iterate 2 refine Decoded.reencodes_ite_instr (fun h => .of_encode rfl rfl (encNnn_of_fields h)) fun _ => ?_
  iterate 2 refine Decoded.reencodes_ite_instr (fun h => .of_encode rfl rfl (encXkk_of_fields h rfl)) fun _ => ?_
  refine Decoded.reencodes_ite_instr (fun h => ⟨rfl, encXyn_zero_of_fields h⟩) fun _ => ?_
  iterate 2 refine Decoded.reencodes_ite_instr (fun h => .of_encode rfl rfl (encXkk_of_fields h rfl)) fun _ => ?_
  refine Decoded.reencodes_ite decodeAlu_reencodes fun _ => ?_
  refine Decoded.reencodes_ite_instr (fun h => ⟨rfl, encXyn_zero_of_fields h⟩) fun _ => ?_
  iterate 2 refine Decoded.reencodes_ite_instr (fun h => .of_encode rfl rfl (encNnn_of_fields h)) fun _ => ?_
  refine Decoded.reencodes_ite_instr (fun h => .of_encode rfl rfl (encXkk_of_fields h rfl)) fun _ => ?_
  refine Decoded.reencodes_ite_instr (fun h => .of_encode rfl rfl (encXyn_of_fields h rfl)) fun _ => ?_
  refine Decoded.reencodes_ite decodeKey_reencodes fun _ => ?_
  have hF : fieldOp w = 0xF#4 := by bv_omega
  exact decodeMisc_reencodes hF

end

/-! ### The statements -/

/-- Settles O1: each format keeps its fields, and the decoder's tests on them pick the instruction's own branch. -/
theorem decodeOfEncodeIsTheInstruction : Obligations.DecodeOfEncodeIsTheInstruction := fun _ => decodeWord_encode

/-- Settles O2, along the branches of the decoder. -/
theorem encodeOfDecodeKeepsTheUsedBits : Obligations.EncodeOfDecodeKeepsTheUsedBits := decodeWord_reencodes

/-- Settles O6, by running the decoder on the nine words. -/
theorem sampleOpcodesDecodeAsWritten : Obligations.SampleOpcodesDecodeAsWritten := by
  unfold Obligations.SampleOpcodesDecodeAsWritten
  decide

end Sys2Proof
end

section
/-! PROOFS. The statements of spec/41_control_flow.md on the call and the return: each handler answers what the stack operation answers, so the two
cases of a push and of a pop are the two cases of the instruction. -/

namespace Sys2Proof

theorem decodeWord_of_family2 {w : Word} (h : fieldOp w = 0x2#4) : decodeWord w = .instr (.call (fieldNnn w)) := by simp [decodeWord, h]

namespace Machine

/-! ### What the handlers answer -/

section
variable {s p : State} {w : Word} (nnn : BitVec 12)

theorem exec_call_of_push (h : s.push s.pc = some p) : exec (.call nnn) s = .next (p.setPc (absolute nnn)) := by
  simp only [exec, execCall, h]

theorem exec_call_of_full (h : s.sp.val = 16) : exec (.call nnn) s = .next (s.report .stackOverflow) := by
  simp only [exec, execCall, push_eq_none s s.pc h]

theorem exec_ret_of_pop (h : s.pop = some (p, w)) : exec .ret s = .next (p.setPc w) := by
  simp only [exec, execRet, h]

theorem exec_ret_of_empty (h : s.sp.val = 0) : exec .ret s = .next (s.report .stackUnderflow) := by
  simp only [exec, execRet, pop_eq_none s h]

end

section
variable (s : State)

/-- A call with room on the stack (R164). -/
theorem exec_call_of_room (nnn : BitVec 12) (h : s.sp.val < 16) : ∃ t, exec (.call nnn) s = .next t ∧
    t.pc.toNat = nnn.toNat ∧ t.sp.val = s.sp.val + 1 ∧ t.slot ⟨s.sp.val, h⟩ = s.pc ∧ t.mem = s.mem ∧ t.diag = s.diag ∧
    OnlyChanges (fun p => p = .pc ∨ p = .sp ∨ p = .slot ⟨s.sp.val, h⟩) s t := by
  obtain ⟨p, hp, hsp, hslot, hdiag, hframe⟩ := push_eq_some s s.pc h
  exact ⟨_, exec_call_of_push nnn hp, absolute_toNat nnn, hsp, hslot, (setPc_mem p _).trans (push_mem s hp), hdiag,
    (hframe.mono (by tauto)).trans ((onlyChanges_setPc p _).mono (by tauto))⟩

/-- A return with an address on the stack (R162). -/
theorem exec_ret_of_address (h : 0 < s.sp.val) : ∃ t, exec .ret s = .next t ∧
    t.pc = s.slot ⟨s.sp.val - 1, by omega⟩ ∧ t.sp.val = s.sp.val - 1 ∧ t.mem = s.mem ∧ t.diag = s.diag ∧
    OnlyChanges (fun p => p = .pc ∨ p = .sp) s t := by
  obtain ⟨p, hp, hsp, hdiag, hframe⟩ := pop_eq_some s h
  exact ⟨_, exec_ret_of_pop hp, rfl, hsp, (setPc_mem p _).trans (pop_mem s hp), hdiag,
    (hframe.mono (by tauto)).trans ((onlyChanges_setPc p _).mono (by tauto))⟩

end

/-! ### What a call and a return that answered can have done -/

section
variable {s t : State} {nnn : BitVec 12}

theorem exec_call_cases (h : exec (.call nnn) s = .next t) :
    (∃ hroom : s.sp.val < 16, t.pc.toNat = nnn.toNat ∧ t.sp.val = s.sp.val + 1 ∧ t.slot ⟨s.sp.val, hroom⟩ = s.pc ∧
      t.mem = s.mem ∧ t.diag = s.diag ∧ OnlyChanges (fun p => p = .pc ∨ p = .sp ∨ p = .slot ⟨s.sp.val, hroom⟩) s t) ∨
    (s.sp.val = 16 ∧ t = s.report .stackOverflow) := by
  by_cases hroom : s.sp.val < 16
  · obtain ⟨t₀, ht₀, hspec⟩ := exec_call_of_room s nnn hroom
    obtain rfl := Host.Outcome.next.inj (ht₀.symm.trans h)
    exact .inl ⟨hroom, hspec⟩
  · have hfull : s.sp.val = 16 := by omega
    exact .inr ⟨hfull, (Host.Outcome.next.inj ((exec_call_of_full nnn hfull).symm.trans h)).symm⟩

theorem exec_ret_cases (h : exec .ret s = .next t) :
    (∃ haddr : 0 < s.sp.val, t.pc = s.slot ⟨s.sp.val - 1, by omega⟩ ∧ t.sp.val = s.sp.val - 1 ∧ t.mem = s.mem ∧ t.diag = s.diag ∧
      OnlyChanges (fun p => p = .pc ∨ p = .sp) s t) ∨
    (s.sp.val = 0 ∧ t = s.report .stackUnderflow) := by
  by_cases haddr : 0 < s.sp.val
  · obtain ⟨t₀, ht₀, hspec⟩ := exec_ret_of_address s haddr
    obtain rfl := Host.Outcome.next.inj (ht₀.symm.trans h)
    exact .inl ⟨haddr, hspec⟩
  · have hempty : s.sp.val = 0 := by omega
    exact .inr ⟨hempty, (Host.Outcome.next.inj ((exec_ret_of_empty hempty).symm.trans h)).symm⟩

end

end Machine

open Machine

/-! ### The statements -/

/-- Settles O14, from the two cases of a push. -/
theorem callPushesTheReturnAddressAndJumps : Obligations.CallPushesTheReturnAddressAndJumps := by
  refine ⟨fun _ => decodeWord_of_family2, fun s nnn h => ?_, fun s nnn h =>
    ⟨_, exec_call_of_full nnn h, (reports_reportIf s true _).congr (by simp), onlyChanges_reportIf s true _⟩⟩
  obtain ⟨t, ht, hpc, hsp, hslot, -, -, hframe⟩ := exec_call_of_room s nnn h
  exact ⟨t, ht, hpc, hsp, hslot, hframe⟩

/-- Settles O15, from the two cases of a pop. -/
theorem returnPopsTheReturnAddress : Obligations.ReturnPopsTheReturnAddress := by
  refine ⟨fun s h => ?_, fun s h =>
    ⟨_, exec_ret_of_empty h, (reports_reportIf s true _).congr (by simp), onlyChanges_reportIf s true _⟩⟩
  obtain ⟨t, ht, hpc, hsp, -, -, hframe⟩ := exec_ret_of_address s h
  exact ⟨t, ht, hpc, hsp, hframe⟩

/-- Settles O16: the slot that the return reads is the one that the call wrote. -/
theorem returnResumesAfterTheMatchingCall : Obligations.ReturnResumesAfterTheMatchingCall := by
  intro s t t' nnn hroom hcall hsp hslots
  rcases exec_call_cases hcall with ⟨_, -, htsp, hslot, -⟩ | ⟨hfull, -⟩
  · have htsp' : t'.sp.val = s.sp.val + 1 := hsp ▸ htsp
    obtain ⟨u, hret, hupc, husp, -⟩ := exec_ret_of_address t' (by omega)
    have htop : (⟨t'.sp.val - 1, by omega⟩ : Fin 16) = ⟨s.sp.val, hroom⟩ := Fin.ext (by simp [htsp'])
    exact ⟨u, hret, by rw [hupc, htop, hslots, hslot], Fin.ext (by omega)⟩
  · exact absurd hfull hroom.ne

end Sys2Proof
end

section
/-! PROOFS. The statements of spec/46_keypad_timers.md, and `Cxkk` of spec/43_alu.md, the one instruction that reads the random byte. The key tests
are the shared skip after the report that their key index makes. -/

namespace Sys2Proof

/-! ### Families 0xC and 0xE, and the sub-operations of family 0xF (spec/30_encoding.md R106, R108, R109) -/

section
variable {w : Word}

theorem decodeWord_of_familyC (h : fieldOp w = 0xC#4) : decodeWord w = .instr (.rnd (fieldX w) (fieldKk w)) := by simp [decodeWord, h]

theorem decodeKey_of_9E (h : fieldKk w = 0x9E#8) : decodeKey w = .instr (.skp (fieldX w)) := by simp [decodeKey, h]

theorem decodeKey_of_A1 (h : fieldKk w = 0xA1#8) : decodeKey w = .instr (.sknp (fieldX w)) := by simp [decodeKey, h]

theorem decodeMisc_of_07 (h : fieldKk w = 0x07#8) : decodeMisc w = .instr (.ldVxDt (fieldX w)) := by simp [decodeMisc, h]

theorem decodeMisc_of_0A (h : fieldKk w = 0x0A#8) : decodeMisc w = .instr (.ldVxK (fieldX w)) := by simp [decodeMisc, h]

theorem decodeMisc_of_15 (h : fieldKk w = 0x15#8) : decodeMisc w = .instr (.ldDtVx (fieldX w)) := by simp [decodeMisc, h]

theorem decodeMisc_of_18 (h : fieldKk w = 0x18#8) : decodeMisc w = .instr (.ldStVx (fieldX w)) := by simp [decodeMisc, h]

end

namespace Machine

/-! ### What the handlers answer -/

section
variable (s : State) (x : VReg)

theorem exec_rnd (kk : Byte) : exec (.rnd x kk) s = .next (s.setV x (s.input.rnd &&& kk)) := rfl

theorem exec_skp : exec (.skp x) s = .next ((s.reportKey x).skipIf (s.keyTest x)) := rfl

theorem exec_sknp : exec (.sknp x) s = .next ((s.reportKey x).skipIf (!s.keyTest x)) := rfl

theorem exec_ldVxDt : exec (.ldVxDt x) s = .next (s.setV x s.dt) := rfl

theorem exec_ldVxK : exec (.ldVxK x) s = .next ((s.setWaitx x).setMode .awaitKey) := rfl

theorem exec_ldDtVx : exec (.ldDtVx x) s = .next (s.setDt (s.getV x)) := rfl

theorem exec_ldStVx : exec (.ldStVx x) s = .next (s.setSt (s.getV x)) := rfl

/-! ### The key tests (R270, R271, R276) -/

/-- `keyidx` takes the low nibble. -/
theorem keyTest_eq {k : Key} (hk : k.val = (s.getV x).toNat % 16) : s.keyTest x = s.input.keys.getLsbD k.val := by
  rw [hk]
  rfl

theorem reports_reportKey : Reports (0xF < (s.getV x).toNat) .boundViolation s (s.reportKey x) :=
  (reports_reportIf s _ _).congr decide_eq_true_iff

/-- The key index reports, then the skip. -/
theorem reports_keySkip (c : Bool) : Reports (0xF < (s.getV x).toNat ∨ (c = true ∧ 0xFFF < s.pc.toNat + 2)) .boundViolation s
    ((s.reportKey x).skipIf c) :=
  (reports_reportKey s x).trans (reports_skipIf _ c)

theorem onlyChanges_keySkip (c : Bool) : OnlyChanges (fun p => p = .pc ∨ p = .causes) s ((s.reportKey x).skipIf c) :=
  ((onlyChanges_reportIf s _ _).mono fun _ h => .inr h).trans (onlyChanges_skipIf _ c)

end

/-- An instruction that answers the shared skip after the report of its key index, on a test that decides `p`. -/
theorem keySkip_of_exec {s : State} {i : Instr} {x : VReg} {c : Bool} {p q : Prop}
    (h : exec i s = .next ((s.reportKey x).skipIf c)) (hp : c = true ↔ p) (hq : ¬ c = true ↔ q) :
    ∃ t, exec i s = .next t ∧ (p → t.pc.toNat = (s.pc.toNat + 2) % 0x1000) ∧ (q → t.pc = s.pc) ∧
      Reports (0xF < (s.getV x).toNat ∨ (p ∧ 0xFFF < s.pc.toNat + 2)) .boundViolation s t ∧
      OnlyChanges (fun p => p = .pc ∨ p = .causes) s t := by
  obtain rfl : (c = true) = p := propext hp
  exact ⟨_, h, skipIf_pc_of_taken (s.reportKey x), fun hn => skipIf_pc_of_not_taken (s.reportKey x) (hq.mpr hn),
    reports_keySkip s x c, onlyChanges_keySkip s x c⟩

end Machine

open Machine

/-! ### The statements -/

/-- Settles O18: both instructions are the one skip, on the level of the key and on its negation. -/
theorem keySkipsTestTheKeyLevel : Obligations.KeySkipsTestTheKeyLevel := by
  refine ⟨fun w h => ?_, fun s x k hk => ⟨?_, ?_⟩⟩
  · rw [decodeWord_of_familyE h]
    exact ⟨decodeKey_of_9E, decodeKey_of_A1⟩
  · exact keySkip_of_exec (exec_skp s x) (by rw [keyTest_eq s x hk]) (by rw [keyTest_eq s x hk, Bool.not_eq_true])
  · exact keySkip_of_exec (exec_sknp s x) (by rw [keyTest_eq s x hk, Bool.not_eq_true'])
      (by rw [keyTest_eq s x hk, Bool.not_eq_true', Bool.not_eq_false])

/-- Settles O24: the random byte is an input of the state, so the register write of every state covers every byte. -/
theorem randomAndImmediateForEveryByte : Obligations.RandomAndImmediateForEveryByte := by
  refine ⟨fun _ => decodeWord_of_familyC, fun s x kk => ?_⟩
  obtain ⟨t, ht, hv, hframe⟩ := writesVx_of_exec (exec_rnd s x kk)
  exact ⟨t, ht, fun b _ => by rw [hv, BitVec.getLsbD_and], hframe⟩

/-- Settles O34, from the frames of the three one-byte writes. -/
theorem timerInstructionsMoveOneByte : Obligations.TimerInstructionsMoveOneByte := by
  refine ⟨fun w h => ?_, fun s x => ⟨writesVx_of_exec (exec_ldVxDt s x),
    ⟨_, exec_ldDtVx s x, rfl, onlyChanges_setDt s _⟩, ⟨_, exec_ldStVx s x, rfl, onlyChanges_setSt s _⟩⟩⟩
  rw [decodeWord_of_familyF h]
  exact ⟨decodeMisc_of_07, decodeMisc_of_15, decodeMisc_of_18⟩

/-- Settles O35, from the frames of the writes of `WAITX` and of the mode. -/
theorem keyWaitLatchesTheRegisterAndSuspends : Obligations.KeyWaitLatchesTheRegisterAndSuspends :=
  ⟨fun _ h hkk => (decodeWord_of_familyF h).trans (decodeMisc_of_0A hkk), fun s x =>
    ⟨_, exec_ldVxK s x, rfl, rfl,
      ((onlyChanges_setWaitx s x).mono fun _ h => .inl h).trans ((onlyChanges_setMode _ _).mono fun _ h => .inr h)⟩⟩

end Sys2Proof
end

section
/-! PROOFS. The statements on stores and fetches (spec/20_memory.md section 5) and on `Dxyn` (spec/45_display.md), from the block store and the
sprite loop in closed form. -/

namespace Sys2Proof

theorem decodeWord_of_familyD {w : Word} (h : fieldOp w = 0xD#4) : decodeWord w = .instr (.drw (fieldX w) (fieldY w) (fieldN w)) := by
  simp [decodeWord, h]

namespace Machine

/-- The address after a wrapped address is the wrapped next address. -/
theorem wrapA_succ (a : Nat) : wrapA (wrapA a + 1) = wrapA (a + 1) := Nat.mod_add_mod ..

/-! ### The draw (R242) -/

section
variable (s : State) (x y : VReg) (n : BitVec 4)

/-- The sprite of `Dxyn` turned some pixel off. -/
def State.collides : Prop := ∃ py px, s.spriteBit x y n py px = true ∧ s.fbPort py px = true

theorem exec_drw : exec (.drw x y n) s =
    .next (State.writeCollision (s.drawSprite ((s.getV x).toNat % 64) ((s.getV y).toNat % 32) n.toNat)) := rfl

theorem exec_drw_spec : ∃ t, exec (.drw x y n) s = .next t ∧
    (∀ py px, t.fbPort py px = (s.fbPort py px ^^ s.spriteBit x y n py px)) ∧
    (∃ col : Bool, t.getV 15 = flagByte col ∧ (col = true ↔ s.collides x y n)) ∧
    Reports (∃ r, r < n.toNat ∧ 0xFFF < s.i.toNat + r) .boundViolation s t ∧
    OnlyChanges (fun p => p = .causes ∨ p = .v 15 ∨ ∃ py px, p = .pixel py px) s t := by
  have hx : (s.getV x).toNat % 64 < 64 := Nat.mod_lt _ (by decide)
  have hy : (s.getV y).toNat % 32 < 32 := Nat.mod_lt _ (by decide)
  obtain ⟨hpix, hcol⟩ := drawSprite_spec s _ _ n.toNat hx hy (Nat.le_of_lt n.isLt)
  exact ⟨_, exec_drw s x y n, hpix, ⟨_, setV_getV_same _ _ _, hcol⟩, reports_drawSprite s _ _ _,
    ((onlyChanges_drawSprite s _ _ _).mono (by tauto)).trans ((onlyChanges_setV _ vf _).mono (by tauto))⟩

end

/-- A sprite depends on `I`, memory and the start position alone. -/
theorem spriteBit_congr {s t : State} {x y : VReg} (n : BitVec 4) (hi : t.i = s.i) (hb : ∀ a, t.byte a = s.byte a)
    (hx : (t.getV x).toNat % 64 = (s.getV x).toNat % 64) (hy : (t.getV y).toNat % 32 = (s.getV y).toNat % 32) :
    t.spriteBit x y n = s.spriteBit x y n := by
  funext py px
  simp only [State.spriteBit, hi, hb, hx, hy]

theorem flagByte_eq_one_iff (b : Bool) : flagByte b = 1#8 ↔ b = true := by
  revert b
  decide

end Machine

open Machine

/-! ### The statements -/

/-- Settles O30: the two addresses of the fetch are those of two registers in a row, the wrap included. -/
theorem storedRegistersAreFetchedAsAnOpcode : Obligations.StoredRegistersAreFetchedAsAnOpcode := by
  intro s t x k l hwf hexec hl hlx
  obtain rfl := Host.Outcome.next.inj ((exec_ldMemVx s x).symm.trans hexec)
  have hk := storeRegsUpTo_byte s x hwf (k := k) (by omega)
  have hlb := storeRegsUpTo_byte s x hwf hlx
  rw [hl, ← Nat.add_assoc, ← wrapA_succ] at hlb
  exact congrArg₂ wordOfBytes hk hlb

/-- Settles O32, from the sprite loop in closed form. -/
theorem drawXorsTheSpriteAndFlagsTheCollision : Obligations.DrawXorsTheSpriteAndFlagsTheCollision := by
  refine ⟨fun _ => decodeWord_of_familyD, fun s x y n => ?_⟩
  obtain ⟨t, ht, hpix, ⟨col, hvf, hcol⟩, hrep, hframe⟩ := exec_drw_spec s x y n
  refine ⟨t, ht, hpix, fun h => ?_, fun h => ?_, hrep, hframe⟩
  · rw [hvf, hcol.mpr h]
    rfl
  · rw [hvf, Bool.eq_false_iff.mpr fun hc => h (hcol.mp hc)]
    rfl

/-- Settles O33: the second draw has the sprite of the first, so it inverts the same pixels, and it collides with those that the first turned on. -/
theorem secondIdenticalDrawRestoresTheFramebuffer : Obligations.SecondIdenticalDrawRestoresTheFramebuffer := by
  intro s t x y n hfirst hx hy
  obtain ⟨t₀, ht₀, hpix, -, -, hframe⟩ := exec_drw_spec s x y n
  obtain rfl : t₀ = t := Host.Outcome.next.inj (ht₀.symm.trans hfirst)
  have hsprite : t₀.spriteBit x y n = s.spriteBit x y n :=
    spriteBit_congr n (hframe .i (by simp)) (fun a => hframe (.byte a) (by simp)) hx hy
  obtain ⟨u, hu, hpix', ⟨col, hvf, hcol⟩, -, -⟩ := exec_drw_spec t₀ x y n
  refine ⟨u, hu, fun py px => ?_, ?_⟩
  · rw [hpix', hsprite, hpix, Bool.xor_assoc, Bool.xor_self, Bool.xor_false]
  · rw [hvf, flagByte_eq_one_iff, hcol, State.collides, hsprite]
    refine exists₂_congr fun py px => ?_
    rw [hpix]
    cases s.spriteBit x y n py px <;> cases s.fbPort py px <;> simp

end Sys2Proof
end

section
/-! PROOFS. The statements of spec/40_cycle_driver.md and spec/60_exceptions.md on one step: what the parts around the handler do, in each of the
three ways a step can go (`step_cases`). -/

namespace Sys2Proof.Machine

variable {s t u : State} {i : Instr}

/-! ### The start and the end of a step -/

/-- A `PC` inside memory is recorded whole: it needs 12 bits. -/
theorem setWidth_pc_toNat (h : s.pc.toNat ≤ 0xFFF) : (s.pc.setWidth 12).toNat = s.pc.toNat := by
  rw [BitVec.toNat_setWidth]
  omega

/-- What a handler on the fetched state wrote within `P`, the step writes, and what every step writes besides. -/
theorem onlyChanges_of_fetched {P : Part → Prop} (h : OnlyChanges P s.fetched u) :
    OnlyChanges (fun p => P p ∨ everyStepWrites p) s u.endStep := by
  unfold everyStepWrites
  exact ((onlyChanges_fetched s).mono (by tauto)).trans ((h.mono (by tauto)).trans ((onlyChanges_endStep u).mono (by tauto)))

/-- The end of a step in `AwaitKey`, after a poll that wrote within `P`. -/
theorem onlyChanges_awaitStep {P : Part → Prop} (h : OnlyChanges P (s.beginDiag none) (s.beginDiag none).awaitPoll) :
    OnlyChanges (fun p => P p ∨ p = .dt ∨ p = .kprev ∨ p = .causes ∨ p = .diagPc ∨ p = .diagOpcode ∨ p = .sched ∨ p = .stepNo) s
      s.awaitStep :=
  ((onlyChanges_beginDiag s none).mono (by tauto)).trans ((h.mono (by tauto)).trans ((onlyChanges_endStep _).mono (by tauto)))

theorem awaitPoll_frame (s : State) : OnlyChanges (fun p => p = .v s.waitx ∨ p = .mode) s s.awaitPoll := by
  rcases awaitPoll_cases s with ⟨-, hpoll⟩ | ⟨k, -, hpoll⟩ <;> rw [hpoll]
  · exact OnlyChanges.refl _ s
  · exact ((onlyChanges_setV s _ _).mono fun _ h => .inl h).trans ((onlyChanges_setMode _ _).mono fun _ h => .inr h)

/-- Neither the record's start nor the poll touches `DT` or the inputs. -/
theorem stepEnd_awaitStep (s : State) : StepEnd s s.dt s.awaitStep := by
  have hpoll := awaitPoll_frame (s.beginDiag none)
  have hdt : (s.beginDiag none).awaitPoll.dt = s.dt := hpoll .dt (by simp)
  rw [← hdt]
  exact stepEnd_endStep (hpoll .sched (by simp)) (hpoll .stepNo (by simp))

theorem awaitStep_diag (s : State) : s.awaitStep.diag = (s.beginDiag none).diag := by
  unfold State.awaitStep
  rcases awaitPoll_cases (s.beginDiag none) with ⟨-, hpoll⟩ | ⟨k, -, hpoll⟩ <;> rw [hpoll] <;> rfl

/-- The unknown-opcode policy leaves `DT` and the inputs alone. -/
theorem stepEnd_unknown (s : State) : StepEnd s s.dt s.fetched.executeUnknown.endStep := by
  have hdt : s.fetched.executeUnknown.dt = s.dt := by simp
  rw [← hdt]
  exact stepEnd_endStep (by simp) (by simp)

/-- The causes of a step on an unknown opcode. -/
theorem executeUnknown_has (s : State) (c : Cause) : s.fetched.executeUnknown.endStep.diag.has c = true ↔
    (c = .boundViolation ∧ 0xFFF < s.pc.toNat + 2) ∨ c = .unknownOpcode := by
  have hrep := reports_reportIf s.fetched true .unknownOpcode c
  rw [fetched_has] at hrep
  exact hrep.trans (by simp)

/-! ### What no handler writes -/

section
variable (i)

theorem not_mayWrite_sched : ¬ mayWrite i .sched := by cases i <;> simp [mayWrite]

theorem not_mayWrite_stepNo : ¬ mayWrite i .stepNo := by cases i <;> simp [mayWrite]

theorem not_mayWrite_diagPc : ¬ mayWrite i .diagPc := by cases i <;> simp [mayWrite]

theorem not_mayWrite_diagOpcode : ¬ mayWrite i .diagOpcode := by cases i <;> simp [mayWrite]

theorem mayWrite_dt_iff : mayWrite i .dt ↔ ∃ x, i = .ldDtVx x := by cases i <;> simp [mayWrite]

end

/-- After a handler the step ends from the value of `DT` that the handler left (R133). -/
theorem stepEnd_of_exec (h : exec i s.fetched = .next u) : StepEnd s u.dt u.endStep :=
  stepEnd_endStep (Eq.trans (exec_onlyChanges h .sched (not_mayWrite_sched i)) (fetched_sched s))
    (Eq.trans (exec_onlyChanges h .stepNo (not_mayWrite_stepNo i)) (fetched_stepNo s))

/-! ### Handlers and steps that answer a next state -/

/-- Every handler answers a next state, in every state (spec/60_exceptions.md R303). -/
theorem exec_eq_next (i : Instr) (s : State) : ∃ u, exec i s = .next u := by
  cases i <;> exact ⟨_, rfl⟩

theorem step_eq_next (h : ¬ (s.mode = .running ∧ 0xFFF < s.pc.toNat)) : ∃ t, step s = .next t := by
  cases hm : s.mode with
  | awaitKey => exact ⟨_, step_awaitKey s hm⟩
  | running =>
    have hpc : s.pc.toNat ≤ 0xFFF := Nat.le_of_not_lt fun hgt => h ⟨hm, hgt⟩
    cases hd : decodeWord s.opcodeAtPc with
    | rejected r => exact ⟨_, step_of_rejected s r hm hpc hd⟩
    | instr i =>
      obtain ⟨u, hu⟩ := exec_eq_next i s.fetched
      exact ⟨u.endStep, by rw [step_of_runs s i ⟨hm, hpc, hd⟩, hu]⟩

/-- A step that runs `i` is its handler, then the end of the step. -/
theorem step_of_exec (hr : s.runs i) (h : exec i s.fetched = .next u) : step s = .next u.endStep := by
  rw [step_of_runs s i hr, h]

/-! ### The statements -/

/-- Settles O7: the bytes decode to what `step` decodes, and the parts around the handler have their own laws. -/
theorem stepRunsTheDecodedInstruction : Obligations.StepRunsTheDecodedInstruction := by
  refine ⟨fun s i hm hpc hbytes _ => step_of_runs s i ⟨hm, hpc, congrArg Prod.fst hbytes⟩, fun s hpc => ?_, fun t => ?_⟩
  · exact ⟨fetched_pc_toNat s, setWidth_pc_toNat hpc, rfl, fetched_has s, onlyChanges_fetched s⟩
  · exact ⟨stepEnd_endStep rfl rfl, onlyChanges_endStep t⟩

/-- Settles O8, from the laws of the fetched state, of one report and of the end of the step. -/
theorem unknownOpcodeIsAReportedNoOp : Obligations.UnknownOpcodeIsAReportedNoOp := by
  intro s r hm hpc hd
  refine ⟨_, step_of_rejected s r hm hpc hd, fetched_pc_toNat s, fun c => (executeUnknown_has s c).trans or_comm,
    stepEnd_unknown s, ?_⟩
  exact (onlyChanges_of_fetched (onlyChanges_reportIf s.fetched true .unknownOpcode)).mono (by simp only [everyStepWrites]; tauto)

/-- Settles O9: without a new key the poll does nothing. -/
theorem awaitKeyWithoutANewKeyOnlyDecaysAndLatches : Obligations.AwaitKeyWithoutANewKeyOnlyDecaysAndLatches := by
  intro s hm hno
  have hpoll : (s.beginDiag none).awaitPoll = s.beginDiag none := awaitPoll_of_no_newKey _ hno
  have hframe : OnlyChanges (fun _ => False) (s.beginDiag none) (s.beginDiag none).awaitPoll := by
    rw [hpoll]
    exact OnlyChanges.refl _ _
  exact ⟨_, step_awaitKey s hm, congrArg Diag.valid (awaitStep_diag s), congrArg Diag.opcode (awaitStep_diag s),
    stepEnd_awaitStep s, (onlyChanges_awaitStep hframe).mono (by tauto)⟩

/-- Settles O10: the poll writes the least new key. -/
theorem awaitKeyResolvesWithTheLeastNewKey : Obligations.AwaitKeyResolvesWithTheLeastNewKey := by
  intro s k hm hk hmin
  have hpoll : (s.beginDiag none).awaitPoll = ((s.beginDiag none).setV s.waitx (BitVec.ofNat 8 k.val)).setMode .running :=
    awaitPoll_of_least _ k hk hmin
  have hv : s.awaitStep.getV s.waitx = BitVec.ofNat 8 k.val := by
    rw [State.awaitStep, hpoll]
    exact setV_getV_same (s.beginDiag none) s.waitx _
  have hk8 : (BitVec.ofNat 8 k.val).toNat = k.val := Nat.mod_eq_of_lt (k.isLt.trans (by decide))
  exact ⟨_, step_awaitKey s hm, (congrArg BitVec.toNat hv).trans hk8, awaitStep_mode_of_newKey hk,
    congrArg Diag.valid (awaitStep_diag s), congrArg Diag.opcode (awaitStep_diag s), stepEnd_awaitStep s,
    (onlyChanges_awaitStep (awaitPoll_frame (s.beginDiag none))).mono fun _ => or_assoc.mp⟩

/-- Settles O36: the end of the step takes the `DT` that the handler left, which is the old one unless `Fx15` ran. -/
theorem everyStepDecaysOnceAndLatches : Obligations.EveryStepDecaysOnceAndLatches := by
  intro s t h
  rcases step_cases h with ⟨hm, rfl⟩ | ⟨-, -, ⟨r, hr⟩, rfl⟩ | ⟨i, u, hrun, he, rfl⟩
  · refine ⟨fun x hx => ?_, fun _ => stepEnd_awaitStep s⟩
    cases hm.symm.trans hx.1
  · refine ⟨fun x hx => ?_, fun _ => stepEnd_unknown s⟩
    cases hr.symm.trans hx.2.2
  · refine ⟨fun x hx => ?_, fun hno => ?_⟩
    · obtain rfl := runs_unique hrun hx
      obtain rfl := Host.Outcome.next.inj ((exec_ldDtVx s.fetched x).symm.trans he)
      exact stepEnd_of_exec he
    · have hdt : u.dt = s.dt := exec_onlyChanges he .dt fun hw => by
        obtain ⟨x, rfl⟩ := (mayWrite_dt_iff i).mp hw
        exact hno x hrun
      exact hdt ▸ stepEnd_of_exec he

/-- Settles O37: the record is started with both fields, and nothing after its start writes them. -/
theorem everyStepRecordsItsPcAndOpcode : Obligations.EveryStepRecordsItsPcAndOpcode := by
  intro s t h hpc
  have hpc12 := setWidth_pc_toNat hpc
  rcases step_cases h with ⟨hm, rfl⟩ | ⟨hm, -, -, rfl⟩ | ⟨i, u, ⟨hm, -⟩, he, rfl⟩
  · rw [awaitStep_diag]
    exact ⟨hpc12, fun hm' => by simp [hm] at hm', fun _ => rfl⟩
  · exact ⟨hpc12, fun _ => rfl, fun hm' => by simp [hm] at hm'⟩
  · have hdpc : u.diag.pc = s.pc.setWidth 12 := exec_onlyChanges he .diagPc (not_mayWrite_diagPc i)
    have hop : u.diag.opcode = some s.opcodeAtPc := exec_onlyChanges he .diagOpcode (not_mayWrite_diagOpcode i)
    exact ⟨by rw [endStep_diag, hdpc, hpc12], fun _ => hop, fun hm' => by simp [hm] at hm'⟩

/-- Settles O49: the one stop of `step` is the test of `PC`, because every handler answers a next state. -/
theorem stepNeverStopsWithinTheInvariant : Obligations.StepNeverStopsWithinTheInvariant :=
  ⟨step_of_pcOutside, fun _ => step_eq_next, fun _ hinv => step_eq_next fun h => Nat.not_lt.mpr hinv.pc_le h.2⟩

end Sys2Proof.Machine
end

section
/-! PROOFS. The end of a run (spec/40_cycle_driver.md R142): a step from a halt loop is the jump to its own address, and so is every later one. -/

namespace Sys2Proof.Machine

variable {s t u : State}

/-- The parts that a step from a halt loop may change. -/
def haltLoopWrites (p : Part) : Prop :=
  p = .dt ∨ p = .kprev ∨ p = .causes ∨ p = .diagPc ∨ p = .diagOpcode ∨ p = .sched ∨ p = .stepNo

/-- Standing at a halt loop is a matter of the mode, `PC` and memory. -/
theorem atHaltLoop_congr (hmode : t.mode = s.mode) (hpc : t.pc = s.pc) (hmem : t.mem = s.mem) : t.atHaltLoop = s.atHaltLoop := by
  have hop : t.opcodeAtPc = s.opcodeAtPc := by simp only [State.opcodeAtPc, State.fetch, State.byte, hpc, hmem]
  simp only [State.atHaltLoop, State.pcInMemory, hmode, hop, hpc]

/-- A step from a halt loop stays in it (R142). -/
theorem step_of_atHaltLoop (h : s.atHaltLoop = true) :
    ∃ t, step s = .next t ∧ t.atHaltLoop = true ∧ OnlyChanges haltLoopWrites s t := by
  have hruns := runs_of_atHaltLoop s h
  have ⟨_, hpc, _⟩ := hruns
  have htarget : absolute (s.pc.setWidth 12) = s.pc :=
    BitVec.eq_of_toNat_eq ((absolute_toNat _).trans (setWidth_pc_toNat hpc))
  have hexec : exec (.jp (s.pc.setWidth 12)) s.fetched = .next (s.fetched.setPc s.pc) := by rw [exec_jp, htarget]
  have hloop : (s.fetched.setPc s.pc).endStep.atHaltLoop = s.atHaltLoop := atHaltLoop_congr (by simp) (by simp) (by simp)
  refine ⟨_, step_of_exec hruns hexec, hloop.trans h, fun p hp => ?_⟩
  by_cases hppc : p = .pc
  · subst hppc
    exact (endStep_pc _).trans (setPc_pc s.fetched s.pc)
  · refine onlyChanges_of_fetched (onlyChanges_setPc s.fetched s.pc) p ?_
    rintro (h | h | h)
    · exact hppc h
    · exact hppc h
    · exact hp h

/-! ### Runs that end -/

theorem endsAfter_one_iff (h : step s = .next t) : s.EndsAfter 1 t ↔ t.atHaltLoop = true :=
  ⟨fun hend => hend.loop, fun hloop => ⟨Nat.one_pos, next?_of_step s h, hloop, fun _ _ hpos hlt => absurd hlt (by omega)⟩⟩

theorem not_endsAfter_zero : ¬ s.EndsAfter 0 t := fun h => Nat.lt_irrefl 0 h.pos

/-- No run ends before another end of the same run. -/
theorem State.EndsAfter.not_lt {n m : Nat} (hn : s.EndsAfter n t) (hm : s.EndsAfter m u) : ¬ n < m := by
  intro hlt
  have hno := hm.first n t hn.pos hlt hn.reached
  exact absurd hn.loop (by simp [hno])

theorem State.EndsAfter.unique {n m : Nat} (hn : s.EndsAfter n t) (hm : s.EndsAfter m u) : n = m ∧ t = u := by
  obtain rfl : n = m := Nat.le_antisymm (Nat.le_of_not_lt (hm.not_lt hn)) (Nat.le_of_not_lt (hn.not_lt hm))
  exact ⟨rfl, Option.some.inj (hn.reached.symm.trans hm.reached)⟩

/-- From a halt loop on, any number of further steps stays in it. -/
theorem afterSteps_of_atHaltLoop {n : Nat} (hreached : s.afterSteps n = some t) (hloop : t.atHaltLoop = true) (k : Nat) :
    ∃ u, s.afterSteps (n + k) = some u ∧ u.atHaltLoop = true ∧ OnlyChanges haltLoopWrites t u := by
  induction k with
  | zero => exact ⟨t, hreached, hloop, OnlyChanges.refl _ t⟩
  | succ k ih =>
    obtain ⟨u, hu, huloop, hframe⟩ := ih
    obtain ⟨u', hstep, hloop', hframe'⟩ := step_of_atHaltLoop huloop
    exact ⟨u', afterSteps_succ s hu hstep, hloop', hframe.trans hframe'⟩

/-! ### The statements -/

/-- Settles O46: the handler of the jump undoes the advance of `PC`. -/
theorem haltLoopIsReexecuted : Obligations.HaltLoopIsReexecuted := fun _ => step_of_atHaltLoop

/-- Settles O53, by the order of the ends of a run, and by induction on the steps after the end. -/
theorem theEndIsTheFirstHaltLoopReachedByAStep : Obligations.TheEndIsTheFirstHaltLoopReachedByAStep := by
  refine ⟨fun _ _ _ _ _ => State.EndsAfter.unique, fun s h => ⟨not_endsAfter_zero, ?_⟩, fun _ _ => endsAfter_one_iff,
    fun _ _ _ hend => afterSteps_of_atHaltLoop hend.reached hend.loop⟩
  obtain ⟨t, hstep, hloop, -⟩ := step_of_atHaltLoop h
  exact ⟨t, (endsAfter_one_iff hstep).mpr hloop⟩

end Sys2Proof.Machine
end

section
/-! PROOFS. Who may change what (spec/10_state.md, spec/20_memory.md, spec/41_control_flow.md). A part that not every step writes has changed only
if the instruction that ran may write it (`step_same_or`), and `mayWrite` tells which instructions those are. -/

namespace Sys2Proof.Machine

variable {s t u : State} (i : Instr)

/-! ### The instructions that may write a part -/

theorem mayWrite_sp_iff : mayWrite i .sp ↔ i = .ret ∨ ∃ nnn, i = .call nnn := by
  cases i <;> simp [mayWrite]

theorem mayWrite_slot_iff (j : Fin 16) : mayWrite i (.slot j) ↔ ∃ nnn, i = .call nnn := by
  cases i <;> simp [mayWrite]

theorem mayWrite_pixel_iff (py : Fin 32) (px : Fin 64) : mayWrite i (.pixel py px) ↔ i = .cls ∨ ∃ x y n, i = .drw x y n := by
  cases i <;> simp [mayWrite]

theorem mayWrite_byte_iff (a : Nat) : mayWrite i (.byte a) ↔ ∃ x, i = .ldBVx x ∨ i = .ldMemVx x := by
  cases i <;> simp [mayWrite]

theorem mayWrite_i_iff : mayWrite i .i ↔ (∃ nnn, i = .ldI nnn) ∨ ∃ x, i = .addIVx x ∨ i = .ldFVx x := by
  cases i <;> simp [mayWrite]

theorem mayWrite_st_iff : mayWrite i .st ↔ ∃ x, i = .ldStVx x := by
  cases i <;> simp [mayWrite]

variable {i}

/-- A handler that may write `VF` writes it as a flag or as its data register; a block load that reaches `VF` ends there. -/
theorem setsFlag_or_dataDest_of_mayWrite_vf (h : mayWrite i (.v 15)) : i.setsFlag = true ∨ i.dataDest = some 15 := by
  cases i
  case ldVxMem x =>
    simp only [mayWrite, reduceCtorEq, false_or, Part.v.injEq] at h
    obtain ⟨k, hkx, rfl⟩ := h
    have hx : x = 15 := Fin.le_antisymm (Fin.le_last x) hkx
    exact .inr (congrArg some hx)
  case addReg | subReg | shr | subnReg | shl | drw => exact .inl rfl
  case ldImm | addImm | ldReg | orReg | andReg | xorReg | rnd | ldVxDt => exact .inr (congrArg some (Part.v.inj h).symm)
  all_goals simp [mayWrite] at h

/-- A flag is 0 or 1, and it is written last (spec/10_state.md R32, R41). -/
theorem exec_vf_of_setsFlag (h : exec i s = .next u) (hf : i.setsFlag = true) : ∃ b : Bool, u.getV 15 = flagByte b := by
  cases i
  case addReg | subReg | shr | subnReg | shl =>
    obtain rfl := Host.Outcome.next.inj h
    exact ⟨_, setVFlag_getV_vf s _ _⟩
  case drw x y n =>
    obtain ⟨t, ht, -, ⟨col, hvf, -⟩, -⟩ := exec_drw_spec s x y n
    obtain rfl := Host.Outcome.next.inj (ht.symm.trans h)
    exact ⟨col, hvf⟩
  all_goals cases hf

theorem flagByte_eq_zero_or_one (b : Bool) : flagByte b = 0#8 ∨ flagByte b = 1#8 := by
  revert b
  decide

/-! ### The change of a part in a step -/

/-- A part that neither every step nor a key wait writes changes only by an instruction that may write it. -/
theorem runs_of_step_change {p : Part} (h : step s = .next t) (hp : ¬ everyStepWrites p) (hv : ∀ r, p ≠ .v r) (hm : p ≠ .mode)
    (hne : ¬ p.Same s t) : ∃ i, s.runs i ∧ mayWrite i p := by
  rcases step_same_or h p hp with hsame | hrun | ⟨-, -, hkey | hkey⟩
  · exact absurd hsame hne
  · exact hrun
  · exact absurd hkey (hv _)
  · exact absurd hkey hm

/-! ### The statements -/

/-- Settles O39, from the instructions that may write `SP` or a slot. -/
theorem onlyCallAndReturnChangeTheStack : Obligations.OnlyCallAndReturnChangeTheStack := by
  rintro s t h (hsp | ⟨j, hslot⟩)
  · obtain ⟨i, hr, hw⟩ := runs_of_step_change (p := .sp) h (by simp [everyStepWrites]) nofun nofun hsp
    rcases (mayWrite_sp_iff i).mp hw with rfl | ⟨nnn, rfl⟩
    · exact .inl hr
    · exact .inr ⟨nnn, hr⟩
  · obtain ⟨i, hr, hw⟩ := runs_of_step_change (p := .slot j) h (by simp [everyStepWrites]) nofun nofun hslot
    obtain ⟨nnn, rfl⟩ := (mayWrite_slot_iff i j).mp hw
    exact .inr ⟨nnn, hr⟩

/-- Settles O40, from the instructions that may write a pixel. -/
theorem onlyClearAndDrawChangeTheFramebuffer : Obligations.OnlyClearAndDrawChangeTheFramebuffer := by
  rintro s t h ⟨py, px, hne⟩
  obtain ⟨i, hr, hw⟩ := runs_of_step_change (p := .pixel py px) h (by simp [everyStepWrites]) nofun nofun hne
  rcases (mayWrite_pixel_iff i py px).mp hw with rfl | ⟨x, y, n, rfl⟩
  · exact .inl hr
  · exact .inr ⟨x, y, n, hr⟩

/-- Settles O41, from the instructions that may write a byte of memory. -/
theorem onlyStoresChangeMemory : Obligations.OnlyStoresChangeMemory := by
  rintro s t h ⟨a, hne⟩
  obtain ⟨i, hr, hw⟩ := runs_of_step_change (p := .byte a) h (by simp [everyStepWrites]) nofun nofun hne
  rcases (mayWrite_byte_iff i a).mp hw with ⟨x, rfl | rfl⟩
  · exact ⟨x, .inl hr⟩
  · exact ⟨x, .inr hr⟩

/-- Settles O42, from the instructions that may write `I`, and from the one that may write `ST`. -/
theorem onlyTheirWritersChangeIndexAndSoundTimer : Obligations.OnlyTheirWritersChangeIndexAndSoundTimer := by
  refine fun s t h => ⟨fun hne => ?_, fun hne => ?_⟩
  · obtain ⟨i, hr, hw⟩ := runs_of_step_change (p := .i) h (by simp [everyStepWrites]) nofun nofun hne
    rcases (mayWrite_i_iff i).mp hw with ⟨nnn, rfl⟩ | ⟨x, rfl | rfl⟩
    · exact .inl ⟨nnn, hr⟩
    · exact .inr ⟨x, .inl hr⟩
    · exact .inr ⟨x, .inr hr⟩
  · obtain ⟨i, hr, hw⟩ := runs_of_step_change (p := .st) h (by simp [everyStepWrites]) nofun nofun hne
    obtain ⟨x, rfl⟩ := (mayWrite_st_iff i).mp hw
    exact ⟨x, hr⟩

/-- Settles O44, from the three ways to write `VF`, and from the flag that a flag writer writes last. -/
theorem onlyListedWritersChangeTheFlagRegister : Obligations.OnlyListedWritersChangeTheFlagRegister := by
  refine fun s t h => ⟨fun hne => ?_, fun i hr hf => ?_⟩
  · rcases step_same_or h (.v 15) (by simp [everyStepWrites]) with hsame | ⟨i, hr, hw⟩ | ⟨hm, hk, hx | hx⟩
    · exact absurd hsame hne
    · exact .inl ⟨i, hr, setsFlag_or_dataDest_of_mayWrite_vf hw⟩
    · exact .inr ⟨hm, (Part.v.inj hx).symm, hk⟩
    · cases hx
  · obtain ⟨u, hu⟩ := exec_eq_next i s.fetched
    obtain rfl := Host.Outcome.next.inj ((step_of_exec hr hu).symm.trans h)
    obtain ⟨b, hb⟩ := exec_vf_of_setsFlag hu hf
    have hvf : u.endStep.getV 15 = flagByte b := hb
    rw [hvf]
    exact flagByte_eq_zero_or_one b

end Sys2Proof.Machine
end

section
/-! PROOFS. The invariant of spec/10_state.md section 3. An instruction that may write a part of it writes a bounded value there, a store keeps the
memory canonical, and every other instruction leaves the part alone by its frame. -/

namespace Sys2Proof.Machine

variable {s t u : State} {i : Instr}

/-! ### Bounded values (spec/20_memory.md R74) -/

theorem absolute_toNat_le (nnn : BitVec 12) : (absolute nnn).toNat ≤ 0xFFF := by
  rw [absolute_toNat]
  exact Nat.le_of_lt_succ nnn.isLt

theorem setPcWrapped_pc_le (s : State) (a : Nat) : (s.setPcWrapped a).pc.toNat ≤ 0xFFF := by
  rw [setPcWrapped_pc_toNat]
  exact Nat.le_of_lt_succ (wrapA_lt a)

theorem setIWrapped_i_le (s : State) (a : Nat) : (s.setIWrapped a).i.toNat ≤ 0xFFF := by
  rw [setIWrapped_i_toNat]
  exact Nat.le_of_lt_succ (wrapA_lt a)

theorem skipIf_pc_le (c : Bool) (hpc : s.pc.toNat ≤ 0xFFF) : (s.skipIf c).pc.toNat ≤ 0xFFF := by
  cases c
  · exact hpc
  · exact setPcWrapped_pc_le s _

/-! ### What a handler keeps -/

theorem skipIf_mem (s : State) (c : Bool) : (s.skipIf c).mem = s.mem := by
  cases c <;> rfl

theorem exec_ret_sp_le (h : exec .ret s = .next u) : u.sp.val ≤ s.sp.val := by
  rcases exec_ret_cases h with ⟨-, -, hsp, -⟩ | ⟨-, rfl⟩
  · omega
  · exact Nat.le_refl _

/-- Every target is an `nnn`, a wrapped sum, or, for a return, a live return address. -/
theorem exec_keeps_pc_le (hpc : s.pc.toNat ≤ 0xFFF) (hret : ∀ j : Fin 16, j.val < s.sp.val → (s.slot j).toNat ≤ 0xFFF)
    (h : exec i s = .next u) : u.pc.toNat ≤ 0xFFF := by
  by_cases hw : mayWrite i .pc
  · cases i
    case ret =>
      rcases exec_ret_cases h with ⟨haddr, hupc, -⟩ | ⟨-, rfl⟩
      · rw [hupc]
        exact hret _ (Nat.sub_one_lt_of_lt haddr)
      · exact hpc
    case call nnn =>
      rcases exec_call_cases h with ⟨-, hupc, -⟩ | ⟨-, rfl⟩
      · rw [hupc]
        exact Nat.le_of_lt_succ nnn.isLt
      · exact hpc
    case jp nnn =>
      obtain rfl := Host.Outcome.next.inj h
      exact absolute_toNat_le nnn
    case jpV0 =>
      obtain rfl := Host.Outcome.next.inj h
      exact setPcWrapped_pc_le s _
    case seImm | sneImm | seReg | sneReg =>
      obtain rfl := Host.Outcome.next.inj h
      exact skipIf_pc_le _ hpc
    case skp x | sknp x =>
      obtain rfl := Host.Outcome.next.inj h
      exact skipIf_pc_le (s := s.reportKey x) _ hpc
    all_goals simp [mayWrite] at hw
  · have hsame : u.pc = s.pc := exec_onlyChanges h .pc hw
    rwa [hsame]

theorem exec_keeps_i_le (hi : s.i.toNat ≤ 0xFFF) (h : exec i s = .next u) : u.i.toNat ≤ 0xFFF := by
  by_cases hw : mayWrite i .i
  · rcases (mayWrite_i_iff i).mp hw with ⟨nnn, rfl⟩ | ⟨x, rfl | rfl⟩ <;> obtain rfl := Host.Outcome.next.inj h
    · exact absolute_toNat_le nnn
    · exact setIWrapped_i_le s _
    · have hv : (s.getV x).toNat < 256 := (s.getV x).isLt
      rw [setI_i, ofNat_glyphAddr_toNat]
      omega
  · have hsame : u.i = s.i := exec_onlyChanges h .i hw
    rwa [hsame]

/-- A call makes the `PC` a live return address; no other instruction writes a slot or makes one live. -/
theorem exec_keeps_ret_le (hpc : s.pc.toNat ≤ 0xFFF) (hret : ∀ j : Fin 16, j.val < s.sp.val → (s.slot j).toNat ≤ 0xFFF)
    (h : exec i s = .next u) (j : Fin 16) (hj : j.val < u.sp.val) : (u.slot j).toNat ≤ 0xFFF := by
  by_cases hw : mayWrite i (.slot j)
  · obtain ⟨nnn, rfl⟩ := (mayWrite_slot_iff i j).mp hw
    rcases exec_call_cases h with ⟨hroom, -, husp, htop, -, -, hframe⟩ | ⟨-, rfl⟩
    · by_cases hjtop : j = ⟨s.sp.val, hroom⟩
      · rwa [hjtop, htop]
      · have hsame : u.slot j = s.slot j := hframe (.slot j) (by simp [hjtop])
        have hne : j.val ≠ s.sp.val := fun e => hjtop (Fin.ext e)
        rw [hsame]
        exact hret j (by omega)
    · exact hret j hj
  · have hsame : u.slot j = s.slot j := exec_onlyChanges h (.slot j) hw
    have hsp : u.sp.val ≤ s.sp.val := by
      by_cases hwsp : mayWrite i .sp
      · rcases (mayWrite_sp_iff i).mp hwsp with rfl | ⟨nnn, rfl⟩
        · exact exec_ret_sp_le h
        · exact absurd ((mayWrite_slot_iff _ j).mpr ⟨nnn, rfl⟩) hw
      · exact Nat.le_of_eq (congrArg Fin.val (exec_onlyChanges h .sp hwsp))
    rw [hsame]
    exact hret j (by omega)

/-- The stores write bytes at wrapped addresses; every other handler leaves the memory list as it is. -/
theorem exec_keeps_mem_wf (hwf : Memory.wf s.mem = true) (h : exec i s = .next u) : Memory.wf u.mem = true := by
  cases i
  case call nnn =>
    rcases exec_call_cases h with ⟨-, -, -, -, hmem, -⟩ | ⟨-, rfl⟩
    · rwa [hmem]
    · exact hwf
  case ret =>
    rcases exec_ret_cases h with ⟨-, -, -, hmem, -⟩ | ⟨-, rfl⟩
    · rwa [hmem]
    · exact hwf
  case ldBVx x =>
    obtain rfl := Host.Outcome.next.inj h
    exact Memory.wf_memWrite _ _ _ (Memory.wf_memWrite _ _ _ (Memory.wf_memWrite _ _ _ hwf))
  case ldMemVx x =>
    obtain rfl := Host.Outcome.next.inj h
    exact wf_storeLoop s (regsUpTo x) hwf
  case drw x y n =>
    obtain rfl := Host.Outcome.next.inj h
    exact (drawSprite_mem s _ _ _).symm ▸ hwf
  case ldVxMem x =>
    obtain rfl := Host.Outcome.next.inj h
    exact (loadLoop_mem s (regsUpTo x)).symm ▸ hwf
  case seImm | sneImm | seReg | sneReg | skp | sknp =>
    obtain rfl := Host.Outcome.next.inj h
    exact (skipIf_mem _ _).symm ▸ hwf
  all_goals
    obtain rfl := Host.Outcome.next.inj h
    exact hwf

/-! ### What a step keeps -/

theorem State.Inv.exec (hs : s.Inv) (h : Machine.exec i s = .next u) : u.Inv where
  pc_le := exec_keeps_pc_le hs.pc_le hs.ret_le h
  i_le := exec_keeps_i_le hs.i_le h
  ret_le := exec_keeps_ret_le hs.pc_le hs.ret_le h
  mem_wf := exec_keeps_mem_wf hs.mem_wf h

/-- The fetched state meets the invariant because its `PC` is wrapped. -/
theorem State.Inv.fetched (hs : s.Inv) : s.fetched.Inv where
  pc_le := setPcWrapped_pc_le _ _
  i_le := hs.i_le
  ret_le := hs.ret_le
  mem_wf := hs.mem_wf

theorem State.Inv.endStep (hs : s.Inv) : s.endStep.Inv := ⟨hs.pc_le, hs.i_le, hs.ret_le, hs.mem_wf⟩

theorem State.Inv.awaitPoll (hs : s.Inv) : s.awaitPoll.Inv := by
  rcases awaitPoll_cases s with ⟨-, hpoll⟩ | ⟨k, -, hpoll⟩ <;> rw [hpoll]
  · exact hs
  · exact ⟨hs.pc_le, hs.i_le, hs.ret_le, hs.mem_wf⟩

theorem State.Inv.beginDiag (hs : s.Inv) (o : Option Word) : (s.beginDiag o).Inv := ⟨hs.pc_le, hs.i_le, hs.ret_le, hs.mem_wf⟩

theorem State.Inv.executeUnknown (hs : s.Inv) : s.executeUnknown.Inv := ⟨hs.pc_le, hs.i_le, hs.ret_le, hs.mem_wf⟩

/-! ### The statements -/

/-- Settles O47: each part of a step keeps the invariant, in each of the three ways a step can go. -/
theorem stepKeepsTheInvariant : Obligations.StepKeepsTheInvariant := by
  intro s t hs h
  rcases step_cases h with ⟨-, rfl⟩ | ⟨-, -, -, rfl⟩ | ⟨i, u, -, he, rfl⟩
  · exact (hs.beginDiag none).awaitPoll.endStep
  · exact hs.fetched.executeUnknown.endStep
  · exact (hs.fetched.exec he).endStep

/-- Settles O48, as the construction of an empty ROM that reset is (log 7). -/
theorem resetMeetsTheInvariant : Obligations.ResetMeetsTheInvariant :=
  (isConstruction_of_construct construct_eq_reset).inv

end Sys2Proof.Machine
end

section
/-! PROOFS. The diagnostic causes of a step (spec/60_exceptions.md R301). Each handler can report one cause, the full stack for the call, the empty
stack for the return and the bound for every other, so one condition an instruction says all that it reports; the fetch adds the bound's own. -/

namespace Sys2Proof.Machine

variable {s t u : State} {i : Instr}

/-- The one cause that an instruction can report. -/
def reportedCause : Instr → Cause
  | .call _ => .stackOverflow
  | .ret => .stackUnderflow
  | _ => .boundViolation

/-- The condition under which an instruction reports it. -/
def reportsWhen (s : State) : Instr → Prop
  | .call _ => s.sp.val = 16
  | .ret => s.sp.val = 0
  | i => exceedsBound s i

/-! ### The conditions of the loops and of the block stores as `exceedsBound` writes them -/

/-- The last register's address is the greatest. -/
theorem exists_addr_exceeds_iff (a : Nat) (x : VReg) : (∃ k : VReg, k.val ≤ x.val ∧ 0xFFF < a + k.val) ↔ 0xFFF < a + x.val :=
  ⟨fun ⟨_, hk, h⟩ => by omega, fun h => ⟨x, Nat.le_refl _, h⟩⟩

/-- The last row's address is the greatest. -/
theorem exists_row_exceeds_iff (a n : Nat) : (∃ r, r < n ∧ 0xFFF < a + r) ↔ 0xFFF < a + (n - 1) ∧ 0 < n :=
  ⟨fun ⟨_, hr, h⟩ => by omega, fun ⟨h, hn⟩ => ⟨n - 1, by omega, h⟩⟩

/-! ### What a handler reports -/

theorem exec_reports (h : exec i s = .next u) : Reports (reportsWhen s i) (reportedCause i) s u := by
  cases i
  case call =>
    rcases exec_call_cases h with ⟨hroom, -, -, -, -, hdiag, -⟩ | ⟨hfull, rfl⟩
    · exact (reports_of_diag_eq _ hdiag).congr (iff_of_false not_false hroom.ne)
    · exact (reports_reportIf s true _).congr (iff_of_true rfl hfull)
  case ret =>
    rcases exec_ret_cases h with ⟨haddr, -, -, -, hdiag, -⟩ | ⟨hempty, rfl⟩
    · exact (reports_of_diag_eq _ hdiag).congr (iff_of_false not_false haddr.ne')
    · exact (reports_reportIf s true _).congr (iff_of_true rfl hempty)
  case drw x y n =>
    obtain ⟨t, ht, -, -, hrep, -⟩ := exec_drw_spec s x y n
    obtain rfl := Host.Outcome.next.inj (ht.symm.trans h)
    exact hrep.congr (exists_row_exceeds_iff _ _)
  all_goals obtain rfl := Host.Outcome.next.inj h
  case seImm | sneImm | seReg | sneReg =>
    exact (reports_skipIf s _).congr (and_congr_left' decide_eq_true_iff)
  case skp => exact reports_keySkip s _ _
  case sknp =>
    exact (reports_keySkip s _ _).congr (or_congr_right (and_congr_left' (Bool.not_eq_true' _).to_iff))
  case jpV0 => exact reports_setPcWrapped s _
  case addIVx => exact reports_setIWrapped s _
  case ldBVx => exact reports_memWriteThree s _ _ _ _
  case ldMemVx x => exact (reports_storeRegsUpTo s x).congr (exists_addr_exceeds_iff _ x)
  case ldVxMem x => exact (reports_loadRegsUpTo s x).congr (exists_addr_exceeds_iff _ x)
  all_goals exact reports_of_diag_eq _ rfl

/-- The causes of a step that ran a handler: the fetch's and the handler's. -/
theorem endStep_has_of_exec (h : exec i s.fetched = .next u) (c : Cause) : u.endStep.diag.has c = true ↔
    (c = .boundViolation ∧ 0xFFF < s.pc.toNat + 2) ∨ (c = reportedCause i ∧ reportsWhen s.fetched i) := by
  rw [endStep_diag, exec_reports h c, fetched_has]

/-- A record is valid when it holds some cause: the four bits of the set are the four causes. -/
theorem valid_iff_exists_has (d : Diag) : d.valid = true ↔ ∃ c : Cause, d.has c = true := by
  have hbits : ∀ m : BitVec 4, (m != 0#4) = true ↔ ((m &&& Cause.unknownOpcode.bit != 0#4) = true ∨
      (m &&& Cause.stackOverflow.bit != 0#4) = true ∨ (m &&& Cause.stackUnderflow.bit != 0#4) = true ∨
      (m &&& Cause.boundViolation.bit != 0#4) = true) := by decide
  refine (hbits d.causes).trans ⟨?_, ?_⟩
  · rintro (h | h | h | h) <;> exact ⟨_, h⟩
  · rintro ⟨c, h⟩
    cases c
    · exact .inl h
    · exact .inr (.inl h)
    · exact .inr (.inr (.inl h))
    · exact .inr (.inr (.inr h))

/-! ### What a step reports (R301) -/

section
variable (s i)

theorem reportedCause_ne_unknownOpcode : Cause.unknownOpcode ≠ reportedCause i := by
  cases i <;> simp [reportedCause]

theorem reports_stackOverflow_iff : (.stackOverflow = reportedCause i ∧ reportsWhen s i) ↔ s.sp.val = 16 ∧ ∃ nnn, i = .call nnn := by
  cases i <;> simp [reportedCause, reportsWhen]

theorem reports_stackUnderflow_iff : (.stackUnderflow = reportedCause i ∧ reportsWhen s i) ↔ s.sp.val = 0 ∧ i = .ret := by
  cases i <;> simp [reportedCause, reportsWhen]

theorem reports_boundViolation_iff : (.boundViolation = reportedCause i ∧ reportsWhen s i) ↔ exceedsBound s i := by
  cases i <;> simp [reportedCause, reportsWhen, exceedsBound]

end

/-- The condition that raises a cause in the step of `s`: the table of R301. -/
def raises (s : State) : Cause → Prop
  | .unknownOpcode => s.mode = .running ∧ ∃ r, decodeWord s.opcodeAtPc = .rejected r
  | .stackOverflow => s.sp.val = 16 ∧ ∃ nnn, s.runs (.call nnn)
  | .stackUnderflow => s.sp.val = 0 ∧ s.runs .ret
  | .boundViolation => s.mode = .running ∧ (0xFFF < s.pc.toNat + 2 ∨ ∃ i, s.runs i ∧ exceedsBound s.fetched i)

theorem not_runs_of_awaitKey (h : s.mode = .awaitKey) (i : Instr) : ¬ s.runs i := by
  simp [State.runs, h]

theorem not_runs_of_rejected {r : Reject} (h : decodeWord s.opcodeAtPc = .rejected r) (i : Instr) : ¬ s.runs i := by
  simp [State.runs, h]

theorem runs_iff_eq (h : s.runs i) (j : Instr) : s.runs j ↔ i = j := ⟨runs_unique h, fun e => e ▸ h⟩

/-- A step reports each cause exactly when its condition holds, in each of the three ways a step can go. -/
theorem step_has_iff (h : step s = .next t) (c : Cause) : t.diag.has c = true ↔ raises s c := by
  rcases step_cases h with ⟨hm, rfl⟩ | ⟨hm, -, ⟨r, hr⟩, rfl⟩ | ⟨i, u, hrun, he, rfl⟩
  · rw [awaitStep_diag, beginDiag_has]
    cases c <;> simp [raises, hm, not_runs_of_awaitKey hm]
  · rw [executeUnknown_has]
    cases c <;> simp [raises, hm, hr, not_runs_of_rejected hr]
  · have ⟨hm, _, hd⟩ := hrun
    rw [endStep_has_of_exec he]
    cases c
    case unknownOpcode => simp [raises, hd, reportedCause_ne_unknownOpcode]
    case stackOverflow => simp [raises, runs_iff_eq hrun, reports_stackOverflow_iff]
    case stackUnderflow => simp [raises, runs_iff_eq hrun, reports_stackUnderflow_iff]
    case boundViolation => simp [raises, hm, runs_iff_eq hrun, reports_boundViolation_iff]

/-! ### The statement -/

/-- Settles O38, cause by cause. -/
theorem causesAreReportedExactlyWhenRaised : Obligations.CausesAreReportedExactlyWhenRaised := fun _ t h =>
  ⟨step_has_iff h .unknownOpcode, step_has_iff h .stackOverflow, step_has_iff h .stackUnderflow, step_has_iff h .boundViolation,
    valid_iff_exists_has t.diag⟩

end Sys2Proof.Machine
end

section
/-! PROOFS. What the handlers read of the inputs (spec/40_cycle_driver.md R135). Replacing the inputs to come commutes with every operation that reads
none, so with every handler but the key tests and `Cxkk`. -/

namespace Sys2Proof.Machine

variable (s : State) (sched : List StepInput) (n : Nat)

/-! ### The operations under other inputs -/

@[simp] theorem withInputs_pc : (s.withInputs sched n).pc = s.pc := rfl

theorem skipIf_withInputs (c : Bool) : (s.withInputs sched n).skipIf c = (s.skipIf c).withInputs sched n := by
  cases c <;> rfl

theorem push_withInputs (w : Word) : (s.withInputs sched n).push w = (s.push w).map (·.withInputs sched n) := by
  by_cases h : s.sp.val < 16 <;> simp [State.push, State.withInputs, h]

theorem pop_withInputs : (s.withInputs sched n).pop = s.pop.map fun r => (r.1.withInputs sched n, r.2) := by
  by_cases h : 0 < s.sp.val <;> simp [State.pop, State.withInputs, State.slot, h]

/-- A loop commutes with the replacement when its body does. -/
theorem foldl_withInputs {α : Type} {f : State → α → State} (hf : ∀ t a, f (t.withInputs sched n) a = (f t a).withInputs sched n)
    (l : List α) : l.foldl f (s.withInputs sched n) = (l.foldl f s).withInputs sched n :=
  List.foldl_hom (State.withInputs · sched n) hf

theorem drawRowAt_withInputs (x0 y0 r : Nat) (acc : State × Bool) :
    State.drawRowAt x0 y0 (acc.1.withInputs sched n, acc.2) r =
      ((State.drawRowAt x0 y0 acc r).1.withInputs sched n, (State.drawRowAt x0 y0 acc r).2) := rfl

theorem drawSprite_withInputs (x0 y0 rows : Nat) : (s.withInputs sched n).drawSprite x0 y0 rows =
    ((s.drawSprite x0 y0 rows).1.withInputs sched n, (s.drawSprite x0 y0 rows).2) :=
  List.foldl_hom (init := (s, false)) (fun acc : State × Bool => (acc.1.withInputs sched n, acc.2)) fun acc r =>
    drawRowAt_withInputs sched n x0 y0 r acc

/-- The key test sees the keys alone. -/
theorem keyTest_withInputs (x : VReg) (h : (s.withInputs sched n).input.keys = s.input.keys) :
    (s.withInputs sched n).keyTest x = s.keyTest x :=
  congrArg (fun keys : Word => keys.getLsbD (keyIdx (s.getV x)).val) h

/-! ### The handlers under other inputs -/

theorem exec_withInputs (i : Instr)
    (hkeys : ∀ x, (i = .skp x ∨ i = .sknp x) → (s.withInputs sched n).input.keys = s.input.keys)
    (hrnd : ∀ x kk, i = .rnd x kk → (s.withInputs sched n).input.rnd = s.input.rnd) :
    exec i (s.withInputs sched n) = outcomeWithInputs sched n (exec i s) := by
  cases i
  case call nnn =>
    simp only [exec, execCall, withInputs_pc, push_withInputs]
    cases s.push s.pc <;> rfl
  case ret =>
    simp only [exec, execRet, pop_withInputs]
    cases s.pop <;> rfl
  case seImm | sneImm | seReg | sneReg => exact congrArg _ (skipIf_withInputs s sched n _)
  case skp x =>
    rw [exec_skp, exec_skp, keyTest_withInputs s sched n x (hkeys x (.inl rfl))]
    exact congrArg _ (skipIf_withInputs (s.reportKey x) sched n _)
  case sknp x =>
    rw [exec_sknp, exec_sknp, keyTest_withInputs s sched n x (hkeys x (.inr rfl))]
    exact congrArg _ (skipIf_withInputs (s.reportKey x) sched n _)
  case rnd x kk =>
    rw [exec_rnd, exec_rnd, hrnd x kk rfl]
    rfl
  case drw x y rows => exact congrArg (Host.Outcome.next ∘ State.writeCollision) (drawSprite_withInputs s sched n _ _ _)
  case ldMemVx x => exact congrArg _ (foldl_withInputs s sched n (fun _ _ => rfl) _)
  case ldVxMem x => exact congrArg _ (foldl_withInputs s sched n (fun _ _ => rfl) _)
  all_goals rfl

/-! ### The statement -/

/-- Settles O45, from the operations that each handler calls. -/
theorem handlersReadNoOtherInput : Obligations.HandlersReadNoOtherInput := fun i s sched n => exec_withInputs s sched n i

end Sys2Proof.Machine
end
